-- ==== Sys2Proof/Word.lean ====
section
/-! DEFINITION. The value types of the block: unsigned bit vectors of stated width (rules R8, R9),
bit 0 being the least significant bit of each. -/

namespace Sys2Proof

/-- A command word, `cmd` of rules R23 and R60: `op = cmd[15:12]`, `aux = cmd[11:8]`, `opd = cmd[7:0]`. -/
abbrev Cmd := BitVec 16

/-- The operation select `op` (R23, R60). -/
abbrev Opcode := BitVec 4

/-- The index field `aux` (R23, R60). -/
abbrev Aux := BitVec 4

/-- A byte: an operand `opd`, a codeword, or the result output `res` (R6, R23, R24). -/
abbrev Byte := BitVec 8

/-- A nibble, the payload of one codeword: unsigned 0..15 (R6). -/
abbrev Nibble := BitVec 4

/-- A bit index 0..7 of a byte, as EXTB and DUP2 take it from `aux[2:0]` (R63). -/
abbrev BitIndex := BitVec 3

end Sys2Proof
end

