-- ==== Sys2Proof/Config.lean ====
section
/-! DEFINITION. What one implementation of the block fixes and the spec leaves open. The code's own
parameters (R6) are all fixed by the spec and are no configuration: R22 gives the block none. -/

namespace Sys2Proof

/-- `T_SETTLE`, the input-to-output delay (R7, R205; 92_eei_decisions.md D9): OPEN, so a free value
without a body. Only the host's sampling duty of R203 compares with it; no result depends on it.
DESIGN CHOICE (log entry 5): a natural number of unnamed units of time. -/
opaque Config.tSettle : Nat

end Sys2Proof
end

