-- ==== Sys2Proof/Syntax.lean ====
section
/-! DEFINITION. The commands of the block as syntax: one constructor per row of spec/opcode_table.json
(R62), and the assembly lines of R65. -/

namespace Sys2Proof

/-- A command, split into the operation its `op` field selects (R62) and its other two fields (R60).
Every 16-bit value is one command (R61), illegal ones included: the block answers those too, with a
cause code (R12, R173), so a constructor holds the fields `aux` and `opd` whole and the checks of
R63 belong to its meaning. -/
inductive Instr where
  /-- 0x0 ENC: encode a nibble to a codeword (R141). -/
  | enc (aux : Aux) (opd : Byte)
  /-- 0x1 DEC: decode a codeword to a nibble, correcting one bit (R143). -/
  | dec (aux : Aux) (opd : Byte)
  /-- 0x2 SYN: syndrome of a codeword (R142). -/
  | syn (aux : Aux) (opd : Byte)
  /-- 0x3 DSCAT: scatter a nibble to the data positions (R124). -/
  | dscat (aux : Aux) (opd : Byte)
  /-- 0x4 DGATH: gather the data positions to a nibble (R125). -/
  | dgath (aux : Aux) (opd : Byte)
  /-- 0x5 PEXT: extract the stored parity bits (R126). -/
  | pext (aux : Aux) (opd : Byte)
  /-- 0x6 EXTB: extract the bit at an index, isolated in place (R101). -/
  | extb (aux : Aux) (opd : Byte)
  /-- 0x7 HINIB: high nibble of a byte (R102). -/
  | hinib (aux : Aux) (opd : Byte)
  /-- 0x8 LONIB: low nibble of a byte (R103). -/
  | lonib (aux : Aux) (opd : Byte)
  /-- 0x9 DUP2: 2-bit duplicated pattern of one bit (R104). -/
  | dup2 (aux : Aux) (opd : Byte)
  /-- 0xA and 0xB, reserved (R62, R64): `sel` is `op[0]`. -/
  | reservedAB (sel : BitVec 1) (aux : Aux) (opd : Byte)
  /-- 0xC to 0xF, reserved (R62, R64): `sel` is `op[1:0]`. -/
  | reservedCF (sel : BitVec 2) (aux : Aux) (opd : Byte)
deriving DecidableEq, Repr

/-- One line of the assembly language of R65, its operands as the numbers written (not yet held
against their ranges). -/
inductive AsmLine where
  | enc (n : Nat)
  | dec (c : Nat)
  | syn (c : Nat)
  | dscat (n : Nat)
  | dgath (c : Nat)
  | pext (c : Nat)
  | extb (b i : Nat)
  | hinib (b : Nat)
  | lonib (b : Nat)
  | dup2 (b i : Nat)
  /-- `.word w`: the 16-bit value `w` exactly, legal or not. -/
  | word (w : Nat)
deriving DecidableEq, Repr

end Sys2Proof
end

