-- ==== Sys2Proof/WellFormed.lean ====
section
/-! DEFINITION. Which commands are legal (R63, R64), and for an illegal one the name of the check that
refuses it. -/

namespace Sys2Proof

/-- The causes for which a command is refused, by the names of R172. -/
inductive Cause where
  /-- E_OPCODE: `op` in 0xA..0xF, a reserved opcode. -/
  | eOpcode
  /-- E_INDEX: bit index out of range, `aux[3] = 1`, of EXTB and DUP2. -/
  | eIndex
  /-- E_FIELD: `aux ≠ 0` of an operation that takes no index. -/
  | eField
  /-- E_OPERAND: nibble operand out of range, `opd[7:4] ≠ 0`, of ENC and DSCAT. -/
  | eOperand
deriving DecidableEq, Repr

/-- The columns "legal when" and "otherwise" of R63 for a nibble operand (ENC, DSCAT). -/
def nibbleFormDefect (aux : Aux) (opd : Byte) : Option Cause :=
  if aux ≠ 0#4 then some .eField else if opd.toNat ≥ 16 then some .eOperand else none

/-- The same for a byte operand (DEC, SYN, DGATH, PEXT, HINIB, LONIB). -/
def byteFormDefect (aux : Aux) : Option Cause :=
  if aux ≠ 0#4 then some .eField else none

/-- The same for a byte and an index (EXTB, DUP2): the whole `aux` field is the index, and 8..15 are
out of range. -/
def indexFormDefect (aux : Aux) : Option Cause :=
  if aux.toNat ≥ 8 then some .eIndex else none

/-- The check that refuses an ill-formed command, if one does (R64); where two do, the one R173 reports. -/
def Instr.defect : Instr → Option Cause
  | .enc aux opd => nibbleFormDefect aux opd
  | .dec aux _ => byteFormDefect aux
  | .syn aux _ => byteFormDefect aux
  | .dscat aux opd => nibbleFormDefect aux opd
  | .dgath aux _ => byteFormDefect aux
  | .pext aux _ => byteFormDefect aux
  | .extb aux _ => indexFormDefect aux
  | .hinib aux _ => byteFormDefect aux
  | .lonib aux _ => byteFormDefect aux
  | .dup2 aux _ => indexFormDefect aux
  | .reservedAB _ _ _ => some .eOpcode
  | .reservedCF _ _ _ => some .eOpcode

/-- A legal command of R64: no check refuses it. -/
def Instr.wellFormed (i : Instr) : Bool := i.defect.isNone

end Sys2Proof
end

