-- ==== Sys2Proof/Decode.lean ====
section
/-! DEFINITION. From command words to commands and back (R60 to R62), and from assembly lines to
command words (R65). -/

namespace Sys2Proof

/-- `op = cmd[15:12]` (R23, R60). -/
def opField (w : Cmd) : Opcode := w.extractLsb' 12 4

/-- `aux = cmd[11:8]` (R23, R60). -/
def auxField (w : Cmd) : Aux := w.extractLsb' 8 4

/-- `opd = cmd[7:0]` (R23, R60). -/
def opdField (w : Cmd) : Byte := w.extractLsb' 0 8

/-- The opcode map of R62. It is total: every 16-bit value is one command and no length logic is needed
(R61). The reserved opcodes are commands of their own, which the block answers with E_OPCODE. -/
def decode (w : Cmd) : Instr :=
  match (opField w).toNat with
  | 0x0 => .enc (auxField w) (opdField w)
  | 0x1 => .dec (auxField w) (opdField w)
  | 0x2 => .syn (auxField w) (opdField w)
  | 0x3 => .dscat (auxField w) (opdField w)
  | 0x4 => .dgath (auxField w) (opdField w)
  | 0x5 => .pext (auxField w) (opdField w)
  | 0x6 => .extb (auxField w) (opdField w)
  | 0x7 => .hinib (auxField w) (opdField w)
  | 0x8 => .lonib (auxField w) (opdField w)
  | 0x9 => .dup2 (auxField w) (opdField w)
  | 0xA => .reservedAB ((opField w).extractLsb' 0 1) (auxField w) (opdField w)
  | 0xB => .reservedAB ((opField w).extractLsb' 0 1) (auxField w) (opdField w)
  | _ => .reservedCF ((opField w).extractLsb' 0 2) (auxField w) (opdField w)

/-- The command word of the one format of R60, most significant field first. -/
def commandWord (op : Opcode) (aux : Aux) (opd : Byte) : Cmd := op ++ aux ++ opd

/-- The word of a command, from the table of R62. -/
def encode : Instr → Cmd
  | .enc aux opd => commandWord 0x0 aux opd
  | .dec aux opd => commandWord 0x1 aux opd
  | .syn aux opd => commandWord 0x2 aux opd
  | .dscat aux opd => commandWord 0x3 aux opd
  | .dgath aux opd => commandWord 0x4 aux opd
  | .pext aux opd => commandWord 0x5 aux opd
  | .extb aux opd => commandWord 0x6 aux opd
  | .hinib aux opd => commandWord 0x7 aux opd
  | .lonib aux opd => commandWord 0x8 aux opd
  | .dup2 aux opd => commandWord 0x9 aux opd
  | .reservedAB sel aux opd => commandWord (0b101#3 ++ sel) aux opd
  | .reservedCF sel aux opd => commandWord (0b11#2 ++ sel) aux opd

/-- Why a row of bits is no command. -/
inductive DecodeError where
  /-- It has a 1 beyond bit 15: the `cmd` input has 16 bits and no longer form exists (R61). -/
  | widerThanCommand
deriving DecidableEq, Repr

/-- The command that the low `nbits` bits of `w` are, those above `nbits` being 0. The word is one value on
one parallel port (R40), so no byte order enters. DESIGN CHOICE (log entry 10): a wider number is rejected. -/
def decodeBits (nbits w : Nat) : Except DecodeError Instr :=
  if w % 2 ^ nbits < 2 ^ 16 then .ok (decode (BitVec.ofNat 16 (w % 2 ^ nbits)))
  else .error .widerThanCommand

/-- The command the decoder reads from an opcode-table word; `none` where it rejects. -/
def decodeTableWord (nbits w : Nat) : Option Instr :=
  match decodeBits nbits w with
  | .ok i => some i
  | .error _ => none

/-- The word the host puts on `cmd` for the low `nbits` bits of `w`. DESIGN CHOICE (log entry 10): of a number with a
1 beyond bit 15, which `decodeBits` rejects by name, the port takes the low 16 bits, since it has no more (R23). -/
def commandOfBits (nbits w : Nat) : Cmd := BitVec.ofNat 16 (w % 2 ^ nbits)

/-- R65 for a nibble form: `{op, 0x0, 0x0, n[3:0]}` with n in 0..15. -/
def assembleNibble (op : Opcode) (n : Nat) : Option Cmd :=
  if n < 16 then some (commandWord op 0 (0#4 ++ BitVec.ofNat 4 n)) else none

/-- R65 for a byte form: `{op, 0x0, c[7:0]}` with c in 0..255. -/
def assembleByte (op : Opcode) (c : Nat) : Option Cmd :=
  if c < 256 then some (commandWord op 0 (BitVec.ofNat 8 c)) else none

/-- R65 for an index form: `{op, zext_4(i[2:0]), b[7:0]}` with i in 0..7. -/
def assembleIndexed (op : Opcode) (b i : Nat) : Option Cmd :=
  if b < 256 ∧ i < 8 then
    some (commandWord op ((BitVec.ofNat 3 i).setWidth 4) (BitVec.ofNat 8 b))
  else none

/-- The assembler of R65. An operand outside its range is refused, never truncated. DEDUCED (log entry 14): this is
so of `.word w` too, whose range R65 gives only as "the 16-bit value w exactly". -/
def assemble : AsmLine → Option Cmd
  | .enc n => assembleNibble 0x0 n
  | .dec c => assembleByte 0x1 c
  | .syn c => assembleByte 0x2 c
  | .dscat n => assembleNibble 0x3 n
  | .dgath c => assembleByte 0x4 c
  | .pext c => assembleByte 0x5 c
  | .extb b i => assembleIndexed 0x6 b i
  | .hinib b => assembleByte 0x7 b
  | .lonib b => assembleByte 0x8 b
  | .dup2 b i => assembleIndexed 0x9 b i
  | .word w => if w < 65536 then some (BitVec.ofNat 16 w) else none

end Sys2Proof
end

