-- ==== Sys2Proof/Machine/State.lean ====
section
/-! DEFINITION. What a model of the block holds: the value on its input port, the values on its output
ports (10_state.md, R23, R24, R29), and the host's side of those ports. The block has no register, program
counter, control register, hidden state or memory (R20 to R22, R26 to R28), so none is here. -/

namespace Sys2Proof.Machine

/-- The two outputs of the block (R24): `res`, 8 bits, and `err`, 1 bit, its only flag (R25). -/
structure Outputs where
  res : Byte
  err : Bool
deriving DecidableEq, Repr

/-- What the host does at the block's ports (R21, R29, R203). -/
inductive HostAct where
  /-- Present a command on `cmd`. -/
  | present (cmd : Cmd)
  /-- Sample `res` and `err`: `stable` says that `cmd` was held stable since the command was presented,
  `waited` how long ago that was, in the units of `Config.tSettle` (R203). -/
  | sample (stable : Bool) (waited : Nat)
deriving DecidableEq, Repr

/-- The block and its host. -/
structure State where
  /-- The input port: the command now on `cmd`; `none` before the first command (R23, R200). -/
  cmd : Option Cmd
  /-- The output ports `(res, err)`, which have no value before the first command (R24, R29, R200). -/
  out : Option Outputs
  /-- The MODEL's own: what the host has yet to do, in the host's order (R21, R206; log entry 1). -/
  pending : List HostAct
  /-- The MODEL's own: what the host has sampled so far, oldest first (R206; log entry 4). -/
  samples : List Outputs
deriving DecidableEq, Repr

/-- Why a run stops. Each is a fault of the HOST's run (R203); the block itself never stops (R206). -/
inductive Fault where
  /-- Raised by a host sample before the first command: the outputs have no value then (R29, R200). Safe. -/
  | outputsUnspecified
  /-- Raised by a host sample taken while `cmd` was not held stable (R203). Safe. -/
  | sampledWhileChanging
  /-- Raised by a host sample taken before `T_SETTLE` had passed (R203). Safe. -/
  | sampledTooEarly
deriving DecidableEq, Repr

/-- Why the model gives no answer. Nothing raises one: every command has its meaning, and a refused
COMMAND is no refusal of the model but a next state with `err = 1` (R171). -/
inductive Refusal where
  /-- An instruction without a meaning, by its mnemonic. No arm of `exec` uses it. Safe. -/
  | notModelled (mnemonic : String)
deriving DecidableEq, Repr

/-- The answer of one step. -/
abbrev Answer := Host.Outcome State Fault Refusal

/-- Before the host has presented its first command: nothing on `cmd`, no value on the outputs (R200). There
is nothing else to reset (R201, R202). The host has nothing to do and has sampled nothing (log entries 1, 4). -/
def State.reset : State := { cmd := none, out := none, pending := [], samples := [] }

end Sys2Proof.Machine
end

