-- ==== Sys2Proof/Machine/Flags.lean ====
section
/-! DEFINITION. The block's only flag, `err` (R25), and what stands on `res` beside it (R24, R172). -/

namespace Sys2Proof.Machine

/-- The cause codes of R172. -/
def causeCode : Cause → Byte
  | .eOpcode => 0x01
  | .eIndex => 0x02
  | .eField => 0x03
  | .eOperand => 0x04

/-- The outputs of a command that is not refused: its result, with `err <- 0` (R24, R25). -/
def resultOutputs (v : Byte) : Outputs := { res := v, err := false }

/-- The outputs of a refused command: the cause code, with `err <- 1` (R171). -/
def refusalOutputs (c : Cause) : Outputs := { res := causeCode c, err := true }

end Sys2Proof.Machine
end

