-- ==== Sys2Proof/Machine/Ops.lean ====
section
/-! DEFINITION. The shared operations: driving the outputs, refusing a command, and what the host does at
the ports. -/

namespace Sys2Proof.Machine

/-- Drive both outputs; nothing else of the state is touched (R43). -/
def State.drive (s : State) (o : Outputs) : State := { s with out := some o }

/-- Put a command on the input port. -/
def State.presentCmd (s : State) (w : Cmd) : State := { s with cmd := some w }

/-- The host has done its next action; `rest` is left to do. -/
def State.advanceHost (s : State) (rest : List HostAct) : State := { s with pending := rest }

/-- The host has read a pair of outputs. -/
def State.recordSample (s : State) (o : Outputs) : State := { s with samples := s.samples ++ [o] }

/-- A command completes: `res <- v`, `err <- 0`. -/
def complete (v : Byte) (s : State) : Answer := .next (s.drive (resultOutputs v))

/-- `raise Illegal(code)`: taking the one exception the block has. It drives `err <- 1` and `res <- code` and
does nothing else: no trap, no handler, nothing saved (R171), so there is no return from it either (R175). -/
def raise (c : Cause) (s : State) : Answer := .next (s.drive (refusalOutputs c))

/-- End an evaluation: the result its operands gave, or the refusal of the check that stopped it (R173). -/
def answer (r : Except Cause Byte) (s : State) : Answer :=
  match r with
  | .ok v => complete v s
  | .error c => raise c s

/-- What the host reads when it samples `res` and `err`. Before the first command the read faults (R29, R200);
a sample that does not keep R203 faults too, and has no value. -/
def readOutputs (stable : Bool) (waited : Nat) (s : State) : Except Fault Outputs :=
  match s.out with
  | none => .error .outputsUnspecified
  | some o =>
    if stable = false then .error .sampledWhileChanging
    else if waited < Config.tSettle then .error .sampledTooEarly
    else .ok o

/-- The host samples the outputs. The block's ports stay as they are. -/
def hostSample (stable : Bool) (waited : Nat) (s : State) : Answer :=
  match readOutputs stable waited s with
  | .ok o => .next (s.recordSample o)
  | .error f => .fault f

/-- The host does nothing: the run has ended, and the last outputs stay (R206; log entry 3). -/
def hostIdle (s : State) : Answer := .next s

end Sys2Proof.Machine
end

