-- ==== Sys2Proof/Machine/Operands.lean ====
section
/-! DEFINITION. Operand assembly (R63): every operand is an unsigned field, without extension, scaling or
shifting, after the checks of R173 in R173's order. -/

namespace Sys2Proof.Machine

/-- The nibble operand of ENC and DSCAT: `opd[3:0]`; E_FIELD, then E_OPERAND. -/
def nibbleOperand (aux : Aux) (opd : Byte) : Except Cause Nibble :=
  if aux ≠ 0#4 then .error .eField
  else if opd.extractLsb' 4 4 ≠ 0#4 then .error .eOperand
  else .ok (opd.extractLsb' 0 4)

/-- The byte operand of DEC, SYN, DGATH, PEXT, HINIB and LONIB: `opd[7:0]`; E_FIELD. -/
def byteOperand (aux : Aux) (opd : Byte) : Except Cause Byte :=
  if aux ≠ 0#4 then .error .eField else .ok opd

/-- The byte and index operands of EXTB and DUP2: `opd[7:0]` and `aux[2:0]`; E_INDEX. -/
def indexedOperand (aux : Aux) (opd : Byte) : Except Cause (Byte × BitIndex) :=
  if aux.getLsbD 3 then .error .eIndex else .ok (opd, aux.extractLsb' 0 3)

/-- One evaluation of an operation on a nibble. -/
def onNibble (f : Nibble → Byte) (aux : Aux) (opd : Byte) (s : State) : Answer :=
  answer ((nibbleOperand aux opd).map f) s

/-- One evaluation of an operation on a byte. -/
def onByte (f : Byte → Byte) (aux : Aux) (opd : Byte) (s : State) : Answer :=
  answer ((byteOperand aux opd).map f) s

/-- One evaluation of an operation on a byte and an index. -/
def onIndexed (f : Byte → BitIndex → Byte) (aux : Aux) (opd : Byte) (s : State) : Answer :=
  answer ((indexedOperand aux opd).map fun p => f p.1 p.2) s

end Sys2Proof.Machine
end

