-- ==== Sys2Proof/Machine/BitField.lean ====
section
/-! DEFINITION. The bit-field utilities (40_bitfield.md): EXTB, HINIB, LONIB, DUP2. -/

namespace Sys2Proof.Machine

/-- R101: bit `i` of `b` at position `i`, every other bit 0. -/
def extbResult (b : Byte) (i : BitIndex) : Byte := b &&& (0x01#8 <<< i.toNat)

/-- R102: the high nibble as a value in 0..15; logical, with no sign (R9). -/
def hinibResult (b : Byte) : Byte := (b.extractLsb' 4 4).setWidth 8

/-- R103: the low nibble as a value in 0..15. -/
def lonibResult (b : Byte) : Byte := (b.extractLsb' 0 4).setWidth 8

/-- R104: `zext_8({t, t})` with `t = b[i]` (92_eei_decisions.md D11). -/
def dup2Result (b : Byte) (i : BitIndex) : Byte :=
  (BitVec.ofBool (b.getLsbD i.toNat) ++ BitVec.ofBool (b.getLsbD i.toNat)).setWidth 8

/-- EXTB (R101). -/
def execExtb (aux : Aux) (opd : Byte) (s : State) : Answer := onIndexed extbResult aux opd s

/-- HINIB (R102). -/
def execHinib (aux : Aux) (opd : Byte) (s : State) : Answer := onByte hinibResult aux opd s

/-- LONIB (R103). -/
def execLonib (aux : Aux) (opd : Byte) (s : State) : Answer := onByte lonibResult aux opd s

/-- DUP2 (R104). -/
def execDup2 (aux : Aux) (opd : Byte) (s : State) : Answer := onIndexed dup2Result aux opd s

end Sys2Proof.Machine
end

