-- ==== Sys2Proof/Machine/CodewordFields.lean ====
section
/-! DEFINITION. The codeword layout, covering sets and weights as explicit tables (41_codeword_fields.md), and
the operations that pack and unpack its fields: DSCAT, DGATH, PEXT. -/

namespace Sys2Proof.Machine

/-- The Hamming position of codeword bit `i`, for i in 1..7 (R10). -/
def hammingPosition (i : Nat) : Nat := 8 - i

/-- R120: the data positions, each with the nibble bit it holds. -/
def dataLayout : List (Nat × Nat) := [(5, 3), (3, 2), (2, 1), (1, 0)]

/-- R120: the parity positions. -/
def parityPositions : List Nat := [7, 6, 4]

/-- R120: bits 5, 3, 2, 1. -/
def dataMask : Byte := 0x2E

/-- R120: bits 7, 6, 4. -/
def parityMask : Byte := 0xD0

/-- R120: bit 0. -/
def unusedMask : Byte := 0x01

/-- R121: the covering set COV(p) of parity bit `p`, `p` itself among its members. -/
def covering (p : Nat) : List Nat :=
  match p with
  | 7 => [7, 5, 3, 1]
  | 6 => [6, 5, 2, 1]
  | 4 => [4, 3, 2, 1]
  | _ => []

/-- R122: the weight of parity bit `p` in the syndrome. -/
def weight (p : Nat) : Nat :=
  match p with
  | 7 => 1
  | 6 => 2
  | 4 => 4
  | _ => 0

/-- R11: `xor_{j in S} c[j]`, 0 when S is empty. -/
def xorBits (c : Byte) (positions : List Nat) : Bool :=
  positions.foldl (fun acc j => acc ^^ c.getLsbD j) false

/-- R123: the parity check of COV(p); `false` (0) means that it holds. -/
def parityCheck (p : Nat) (c : Byte) : Bool := xorBits c (covering p)

/-- A bit at a position of a byte, every other bit 0: `zext_8(b) << p`. -/
def placeBit (b : Bool) (p : Nat) : Byte := (BitVec.ofBool b).setWidth 8 <<< p

/-- R124: the nibble's bits at the data positions, every other bit 0. -/
def scatterData (n : Nibble) : Byte :=
  dataLayout.foldl (fun acc e => acc ||| placeBit (n.getLsbD e.2) e.1) 0

/-- R125: the data positions as a nibble, with no parity check and no correction. -/
def gatherData (c : Byte) : Nibble :=
  dataLayout.foldl (fun acc e => acc ||| ((BitVec.ofBool (c.getLsbD e.1)).setWidth 4 <<< e.2)) 0

/-- R126: the stored parity bits, each at the place of its weight (92_eei_decisions.md D10). -/
def storedParity (c : Byte) : BitVec 3 :=
  parityPositions.foldl (fun acc p => acc ||| (if c.getLsbD p then BitVec.ofNat 3 (weight p) else 0)) 0

/-- The result of DGATH. -/
def dgathResult (c : Byte) : Byte := (gatherData c).setWidth 8

/-- The result of PEXT. -/
def pextResult (c : Byte) : Byte := (storedParity c).setWidth 8

/-- DSCAT (R124). -/
def execDscat (aux : Aux) (opd : Byte) (s : State) : Answer := onNibble scatterData aux opd s

/-- DGATH (R125). -/
def execDgath (aux : Aux) (opd : Byte) (s : State) : Answer := onByte dgathResult aux opd s

/-- PEXT (R126). -/
def execPext (aux : Aux) (opd : Byte) (s : State) : Answer := onByte pextResult aux opd s

end Sys2Proof.Machine
end

