-- ==== Sys2Proof/Machine/NibbleCodec.lean ====
section
/-! DEFINITION. The nibble codec (42_nibble_codec.md): ENC, SYN, DEC, built from the tables of
41_codeword_fields.md. -/

namespace Sys2Proof.Machine

/-- The data bits that parity bit `p` protects: COV(p) minus `p` itself (R140, R141). -/
def coveredData (p : Nat) : List Nat := (covering p).filter fun j => j != p

/-- R141: place the data bits, then OR in each parity bit at its position. -/
def encodeNibble (n : Nibble) : Byte :=
  parityPositions.foldl
    (fun acc p => acc ||| placeBit (xorBits (scatterData n) (coveredData p)) p) (scatterData n)

/-- R142: the composite error index, the sum of the weights of the checks that fail; at most 7. -/
def syndrome (c : Byte) : BitVec 3 :=
  parityPositions.foldl
    (fun acc p => acc + (if parityCheck p c then BitVec.ofNat 3 (weight p) else 0)) 0

/-- R143: flip the bit the syndrome names, at `8 - s`; nothing when it is 0. -/
def correctCodeword (c : Byte) : Byte :=
  if syndrome c ≠ 0 then c ^^^ (0x01#8 <<< (8 - (syndrome c).toNat)) else c

/-- The result of SYN. -/
def synResult (c : Byte) : Byte := (syndrome c).setWidth 8

/-- R143: gather the data bits of the corrected codeword. -/
def decodeNibble (c : Byte) : Nibble := gatherData (correctCodeword c)

/-- The result of DEC. -/
def decResult (c : Byte) : Byte := (decodeNibble c).setWidth 8

/-- ENC (R141). -/
def execEnc (aux : Aux) (opd : Byte) (s : State) : Answer := onNibble encodeNibble aux opd s

/-- SYN (R142). -/
def execSyn (aux : Aux) (opd : Byte) (s : State) : Answer := onByte synResult aux opd s

/-- DEC (R143): it reports neither the syndrome nor whether it corrected a bit (R24). -/
def execDec (aux : Aux) (opd : Byte) (s : State) : Answer := onByte decResult aux opd s

end Sys2Proof.Machine
end

