-- ==== Sys2Proof/Machine/Reserved.lean ====
section
/-! DEFINITION. The reserved opcodes 0xA..0xF: refused with E_OPCODE, whatever their other fields hold
(R64, R172, R173). -/

namespace Sys2Proof.Machine

/-- Opcodes 0xA and 0xB. -/
def execReservedAB (_sel : BitVec 1) (_aux : Aux) (_opd : Byte) (s : State) : Answer := raise .eOpcode s

/-- Opcodes 0xC to 0xF. -/
def execReservedCF (_sel : BitVec 2) (_aux : Aux) (_opd : Byte) (s : State) : Answer := raise .eOpcode s

end Sys2Proof.Machine
end

