-- ==== Sys2Proof/Machine/Dispatch.lean ====
section
/-! DEFINITION. One arm per command: the case split of R173. -/

namespace Sys2Proof.Machine

def exec (i : Instr) (s : State) : Host.Outcome State Fault Refusal :=
  match i with
  | .enc aux opd => Sys2Proof.Machine.execEnc aux opd s
  | .dec aux opd => Sys2Proof.Machine.execDec aux opd s
  | .syn aux opd => Sys2Proof.Machine.execSyn aux opd s
  | .dscat aux opd => Sys2Proof.Machine.execDscat aux opd s
  | .dgath aux opd => Sys2Proof.Machine.execDgath aux opd s
  | .pext aux opd => Sys2Proof.Machine.execPext aux opd s
  | .extb aux opd => Sys2Proof.Machine.execExtb aux opd s
  | .hinib aux opd => Sys2Proof.Machine.execHinib aux opd s
  | .lonib aux opd => Sys2Proof.Machine.execLonib aux opd s
  | .dup2 aux opd => Sys2Proof.Machine.execDup2 aux opd s
  | .reservedAB sel aux opd => Sys2Proof.Machine.execReservedAB sel aux opd s
  | .reservedCF sel aux opd => Sys2Proof.Machine.execReservedCF sel aux opd s

end Sys2Proof.Machine
end

