-- ==== Sys2Proof/Machine/Step.lean ====
section
/-! DEFINITION. One step: the host's next action at the ports. Presenting a command IS its evaluation (R12,
R203: one evaluation takes one whole command). -/

namespace Sys2Proof.Machine

/-- The host's next action: a presented command is on `cmd` and is evaluated; a sample reads the outputs; with
no action left the state stays (R206). -/
def step (s : State) : Host.Outcome State Fault Refusal :=
  match s.pending with
  | [] => hostIdle s
  | .present w :: rest => exec (decode w) ((s.advanceHost rest).presentCmd w)
  | .sample stable waited :: rest => hostSample stable waited (s.advanceHost rest)

/-- The host presents this word next, before all else it had to do (log entry 7); of a number wider than `cmd`, its
low 16 bits (DESIGN CHOICE, log entry 10). -/
def State.withFetchWord (s : State) (nbits w : Nat) : State :=
  { s with pending := .present (commandOfBits nbits w) :: s.pending }

end Sys2Proof.Machine
end

