-- ==== Sys2Proof/Machine/Assembler.lean ====
section
/-! DEFINITION. The text of an assembly line (R65): an upper-case mnemonic, a space, then the operands, separated
by a comma and a space; an operand is a number in hexadecimal `0x..`, binary `0b..` or decimal. -/

namespace Sys2Proof.Machine

/-- The value of one digit, in either case (log entry 11). -/
def digitValue (ch : Char) : Option Nat :=
  if '0' ≤ ch ∧ ch ≤ '9' then some (ch.toNat - 48)
  else if 'A' ≤ ch ∧ ch ≤ 'F' then some (ch.toNat - 55)
  else if 'a' ≤ ch ∧ ch ≤ 'f' then some (ch.toNat - 87)
  else none

/-- The digits of a number after those that gave `acc`. -/
def digitsFrom (base acc : Nat) : List Char → Option Nat
  | [] => some acc
  | ch :: rest =>
    match digitValue ch with
    | some d => if d < base then digitsFrom base (base * acc + d) rest else none
    | none => none

/-- A number of at least one digit. -/
def digits (base : Nat) (text : List Char) : Option Nat :=
  match text with
  | [] => none
  | ch :: rest => digitsFrom base 0 (ch :: rest)

/-- A numeric literal of R65. -/
def numericLiteral (text : List Char) : Option Nat :=
  match text with
  | '0' :: 'x' :: ds => digits 16 ds
  | '0' :: 'b' :: ds => digits 2 ds
  | ds => digits 10 ds

/-- The text up to the first `stop`, and what follows it. -/
def cutAt (stop : Char) : List Char → Option (List Char × List Char)
  | [] => none
  | ch :: rest =>
    if ch = stop then some ([], rest)
    else
      match cutAt stop rest with
      | some (before, after) => some (ch :: before, after)
      | none => none

/-- Two operands, separated by a comma and a space. -/
def twoLiterals (text : List Char) : Option (Nat × Nat) :=
  match cutAt ',' text with
  | some (first, ' ' :: second) =>
    match numericLiteral first, numericLiteral second with
    | some b, some i => some (b, i)
    | _, _ => none
  | _ => none

/-- Read a mnemonic's operands. -/
def parseOperands (mnemonic text : List Char) : Option AsmLine :=
  match mnemonic with
  | ['E', 'N', 'C'] => (numericLiteral text).map .enc
  | ['D', 'E', 'C'] => (numericLiteral text).map .dec
  | ['S', 'Y', 'N'] => (numericLiteral text).map .syn
  | ['D', 'S', 'C', 'A', 'T'] => (numericLiteral text).map .dscat
  | ['D', 'G', 'A', 'T', 'H'] => (numericLiteral text).map .dgath
  | ['P', 'E', 'X', 'T'] => (numericLiteral text).map .pext
  | ['E', 'X', 'T', 'B'] => (twoLiterals text).map fun p => .extb p.1 p.2
  | ['H', 'I', 'N', 'I', 'B'] => (numericLiteral text).map .hinib
  | ['L', 'O', 'N', 'I', 'B'] => (numericLiteral text).map .lonib
  | ['D', 'U', 'P', '2'] => (twoLiterals text).map fun p => .dup2 p.1 p.2
  | ['.', 'w', 'o', 'r', 'd'] => (numericLiteral text).map .word
  | _ => none

/-- Read one line. -/
def parseLine (text : List Char) : Option AsmLine :=
  match cutAt ' ' text with
  | some (mnemonic, operands) => parseOperands mnemonic operands
  | none => none

/-- The command word of one line of text. -/
def assembleText (text : List Char) : Option Cmd := (parseLine text).bind assemble

end Sys2Proof.Machine
end

