-- ==== Sys2Proof/Machine/Eval.lean ====
section
/-! DEFINITION. `eval(cmd) -> (res, err)` of R12, written line by line from the pseudocode of R173 and apart from
the decoder and from `exec`: the clear form that claims hold the machine against. -/

namespace Sys2Proof.Machine

/-- The `case op of` of R173, reached when every check has passed. -/
def evalCase (op : Opcode) (aux : Aux) (opd : Byte) : Byte :=
  if op = 0x0 then encodeNibble (opd.extractLsb' 0 4)
  else if op = 0x1 then decResult opd
  else if op = 0x2 then synResult opd
  else if op = 0x3 then scatterData (opd.extractLsb' 0 4)
  else if op = 0x4 then dgathResult opd
  else if op = 0x5 then pextResult opd
  else if op = 0x6 then extbResult opd (aux.extractLsb' 0 3)
  else if op = 0x7 then hinibResult opd
  else if op = 0x8 then lonibResult opd
  else dup2Result opd (aux.extractLsb' 0 3)

/-- The check of R173 that refuses the fields, in R173's order. -/
def evalCheck (op : Opcode) (aux : Aux) (opd : Byte) : Option Cause :=
  if op ≥ 0xA then some .eOpcode
  else if (op = 0x6 ∨ op = 0x9) ∧ aux.getLsbD 3 = true then some .eIndex
  else if ¬(op = 0x6 ∨ op = 0x9) ∧ aux ≠ 0#4 then some .eField
  else if (op = 0x0 ∨ op = 0x3) ∧ opd.extractLsb' 4 4 ≠ 0#4 then some .eOperand
  else none

/-- One evaluation of the block (R12, R173): a total function on all 2^16 command values. -/
def eval (w : Cmd) : Outputs :=
  let op := w.extractLsb' 12 4
  let aux := w.extractLsb' 8 4
  let opd := w.extractLsb' 0 8
  match evalCheck op aux opd with
  | some c => { res := causeCode c, err := true }
  | none => { res := evalCase op aux opd, err := false }

end Sys2Proof.Machine
end

