-- ==== Sys2Proof/Machine/System.lean ====
section
/-! DEFINITION. Any number of instances of the block, sharing nothing (R7, R179). -/

namespace Sys2Proof.Machine

/-- A system of blocks. A place in the list is the model's bookkeeping: the blocks themselves have no
identifiers (R179). -/
abbrev System := List State

/-- The instance at place `k` takes one step; every other one is untouched. DESIGN CHOICE (log entry 8): with no
instance there, nothing happens; and where the step is a host sample that faults (R203, a fault of that host's run),
the step of the WHOLE system ends in that fault, so that the other instances have no next state either. No rule
speaks of a system's run. -/
def systemStep (k : Nat) (sys : System) : Host.Outcome System Fault Refusal :=
  match sys[k]? with
  | none => .next sys
  | some s =>
    match step s with
    | .next t => .next (sys.set k t)
    | .fault f => .fault f
    | .refused r => .refused r

end Sys2Proof.Machine
end

