-- ==== Sys2Proof/Safety.lean ====
section
/-! DEFINITION. The terms that claims use: what a command answers, the pseudocode of the codec's rules as the spec
writes it, what a host must do (R203), and the invariant of the ports. -/

namespace Sys2Proof.Machine

/-- The command completes with result `v`: `res <- v`, `err <- 0`, and nothing else changes. -/
def Completes (i : Instr) (s : State) (v : Byte) : Prop :=
  exec i s = .next { s with out := some { res := v, err := false } }

/-- The command is refused with cause code `code`: `res <- code`, `err <- 1`, and nothing else changes (R171). -/
def RefusedWith (i : Instr) (s : State) (code : Byte) : Prop :=
  exec i s = .next { s with out := some { res := code, err := true } }

/-- The state in which the host next presents `w` and then does `rest`. -/
def State.presenting (s : State) (w : Cmd) (rest : List HostAct) : State :=
  { s with pending := .present w :: rest }

/-- A byte with bit `p` flipped. -/
def flipBit (c : Byte) (p : Nat) : Byte := c ^^^ (0x01#8 <<< p)

/-- In how many of bits 7..1 two bytes differ. -/
def distance (a b : Byte) : Nat :=
  ([7, 6, 5, 4, 3, 2, 1].filter fun j => a.getLsbD j != b.getLsbD j).length

/-! The pseudocode of the rules, word for word, apart from the tables the machine computes with. -/

/-- R124: `{0b00, n[3], 0b0, n[2], n[1], n[0], 0b0}`. -/
def Rule.scatter (n : Nibble) : Byte :=
  0b00#2 ++ BitVec.ofBool (n.getLsbD 3) ++ 0b0#1 ++ BitVec.ofBool (n.getLsbD 2) ++ BitVec.ofBool (n.getLsbD 1)
    ++ BitVec.ofBool (n.getLsbD 0) ++ 0b0#1

/-- R125: `{c[5], c[3], c[2], c[1]}`. -/
def Rule.gather (c : Byte) : Nibble :=
  BitVec.ofBool (c.getLsbD 5) ++ BitVec.ofBool (c.getLsbD 3) ++ BitVec.ofBool (c.getLsbD 2)
    ++ BitVec.ofBool (c.getLsbD 1)

/-- R126: `{c[4], c[6], c[7]}`. -/
def Rule.parity (c : Byte) : BitVec 3 :=
  BitVec.ofBool (c.getLsbD 4) ++ BitVec.ofBool (c.getLsbD 6) ++ BitVec.ofBool (c.getLsbD 7)

/-- R141, with the parities of R140: P1 at bit 7, P2 at bit 6, P4 at bit 4. -/
def Rule.encode (n : Nibble) : Byte :=
  let p1 := n.getLsbD 3 ^^ n.getLsbD 2 ^^ n.getLsbD 0
  let p2 := n.getLsbD 3 ^^ n.getLsbD 1 ^^ n.getLsbD 0
  let p4 := n.getLsbD 2 ^^ n.getLsbD 1 ^^ n.getLsbD 0
  Rule.scatter n ||| ((BitVec.ofBool p1).setWidth 8 <<< 7) ||| ((BitVec.ofBool p2).setWidth 8 <<< 6)
    ||| ((BitVec.ofBool p4).setWidth 8 <<< 4)

/-- R142: `{s4, s2, s1}`. -/
def Rule.syndrome (c : Byte) : BitVec 3 :=
  let s1 := c.getLsbD 7 ^^ c.getLsbD 5 ^^ c.getLsbD 3 ^^ c.getLsbD 1
  let s2 := c.getLsbD 6 ^^ c.getLsbD 5 ^^ c.getLsbD 2 ^^ c.getLsbD 1
  let s4 := c.getLsbD 4 ^^ c.getLsbD 3 ^^ c.getLsbD 2 ^^ c.getLsbD 1
  BitVec.ofBool s4 ++ BitVec.ofBool s2 ++ BitVec.ofBool s1

/-- R143: `c'`, the word after the correction. -/
def Rule.corrected (c : Byte) : Byte :=
  if Rule.syndrome c ≠ 0 then flipBit c (8 - (Rule.syndrome c).toNat) else c

/-- The complete map of R141. -/
def Rule.encodeTable : List Byte :=
  [0x00, 0xD2, 0x54, 0x86, 0x98, 0x4A, 0xCC, 0x1E, 0xE0, 0x32, 0xB4, 0x66, 0x78, 0xAA, 0x2C, 0xFE]

/-- The width in bits of an operation's result (R24): its bits above are 0. -/
def resultWidth : Instr → Nat
  | .enc _ _ => 8
  | .dec _ _ => 4
  | .syn _ _ => 3
  | .dscat _ _ => 8
  | .dgath _ _ => 4
  | .pext _ _ => 3
  | .extb _ _ => 8
  | .hinib _ _ => 4
  | .lonib _ _ => 4
  | .dup2 _ _ => 2
  | .reservedAB _ _ _ => 0
  | .reservedCF _ _ _ => 0

/-- The ways R65 writes a number: hexadecimal, binary, decimal. The hexadecimal digits stand in upper case, as in the
spec's own examples, and in lower case, which the model accepts by its own choice (log entry 11). -/
def literalsOf (n : Nat) : List (List Char) :=
  ["0x".toList ++ (Nat.toDigits 16 n).map Char.toUpper, "0x".toList ++ Nat.toDigits 16 n,
   "0b".toList ++ Nat.toDigits 2 n, Nat.toDigits 10 n]

/-! Runs. -/

/-- A sample that keeps R203: `cmd` held stable, and at least T_SETTLE waited. -/
def Settled (stable : Bool) (waited : Nat) : Prop := stable = true ∧ Config.tSettle ≤ waited

/-- A host that keeps its duties: it samples only after a first command (R29), and settled (R203).
`presented` says whether a command has been presented before. -/
def HostKeepsDuties (presented : Bool) : List HostAct → Prop
  | [] => True
  | .present _ :: rest => HostKeepsDuties true rest
  | .sample stable waited :: rest => presented = true ∧ Settled stable waited ∧ HostKeepsDuties presented rest

/-- The run of R206 as the host does it: each command presented, held for `waited`, then sampled. -/
def sampledRun (waited : Nat) : List Cmd → List HostAct
  | [] => []
  | w :: rest => .present w :: .sample true waited :: sampledRun waited rest

/-- The outputs are those of the command now on `cmd` (R12, R25, R200), and have no value before the first. -/
def State.PortsAgree (s : State) : Prop := s.out = s.cmd.map eval

/-- Everything the host has read is the outputs of a command: never a mix of two (R203). -/
def State.SamplesAreEvaluations (s : State) : Prop := ∀ o ∈ s.samples, ∃ w, o = eval w

/-- The invariant that every step keeps. -/
def State.Inv (s : State) : Prop := s.PortsAgree ∧ s.SamplesAreEvaluations

end Sys2Proof.Machine
end

