-- ==== Sys2Proof/Certificates/Slice0/Obligations.lean ====
section
/-! DEFINITION. The statements for the provers, from the numbered rules of spec/. In a statement about one
command, `{ s with out := … }` is its whole frame: `cmd` and the host's side stay as they were. -/

open Sys2Proof Sys2Proof.Machine

/-! ## Commands and words -/

/-- R61: every 16-bit value is one command, and each command has one word. -/
def Obligations.EveryWordIsOneCommand : Prop :=
  (∀ i : Instr, decode (encode i) = i) ∧ (∀ w : Cmd, encode (decode w) = w)

/-- A number of any width, read as an opcode-table word and presented by `withFetchWord`: below 2^16 both give its
command; a wider one the decoder rejects by name, while the port takes its low 16 bits. What a wider number is, the
spec does not say: both are the model's choice (log entry 10). -/
def Obligations.TableWordsAreReadOrRejectedByName : Prop :=
  (∀ w : Cmd, decodeTableWord 16 w.toNat = some (decode w)) ∧
  (∀ nbits w : Nat, w % 2 ^ nbits < 2 ^ 16 →
    decodeTableWord nbits w = some (decode (BitVec.ofNat 16 (w % 2 ^ nbits)))) ∧
  (∀ nbits w : Nat, 2 ^ 16 ≤ w % 2 ^ nbits →
    decodeBits nbits w = .error .widerThanCommand ∧ decodeTableWord nbits w = none) ∧
  (∀ (s : State) (nbits w : Nat),
    s.withFetchWord nbits w = s.presenting (BitVec.ofNat 16 (w % 2 ^ nbits)) s.pending)

/-- R23, R60: the three fields of the command word, bit by bit. -/
def Obligations.CommandWordSplitsIntoThreeFields : Prop :=
  ∀ w : Cmd,
    (∀ k < 4, (opField w).getLsbD k = w.getLsbD (12 + k)) ∧
    (∀ k < 4, (auxField w).getLsbD k = w.getLsbD (8 + k)) ∧
    (∀ k < 8, (opdField w).getLsbD k = w.getLsbD k) ∧
    opField w ++ auxField w ++ opdField w = w

/-- R62: the opcode map, and the all-zero command. -/
def Obligations.OpcodeSelectsTheOperation : Prop :=
  ∀ (aux : Aux) (opd : Byte) (s : State),
    decode (0x0#4 ++ aux ++ opd) = .enc aux opd ∧
    decode (0x1#4 ++ aux ++ opd) = .dec aux opd ∧
    decode (0x2#4 ++ aux ++ opd) = .syn aux opd ∧
    decode (0x3#4 ++ aux ++ opd) = .dscat aux opd ∧
    decode (0x4#4 ++ aux ++ opd) = .dgath aux opd ∧
    decode (0x5#4 ++ aux ++ opd) = .pext aux opd ∧
    decode (0x6#4 ++ aux ++ opd) = .extb aux opd ∧
    decode (0x7#4 ++ aux ++ opd) = .hinib aux opd ∧
    decode (0x8#4 ++ aux ++ opd) = .lonib aux opd ∧
    decode (0x9#4 ++ aux ++ opd) = .dup2 aux opd ∧
    (∀ op : Opcode, 0xA#4 ≤ op → RefusedWith (decode (op ++ aux ++ opd)) s 0x01) ∧
    decode 0x0000 = .enc 0#4 0 ∧ Completes (decode 0x0000) s 0x00

/-- R66: the worked encodings, from the text of a line to its word, and what the decoder reads there. -/
def Obligations.WorkedEncodings : Prop :=
  assembleText "ENC 0x4".toList = some 0x0004 ∧ decode 0x0004 = .enc 0#4 0x04 ∧
  assembleText "DEC 0x90".toList = some 0x1090 ∧ decode 0x1090 = .dec 0#4 0x90 ∧
  assembleText "SYN 0xDA".toList = some 0x20DA ∧ decode 0x20DA = .syn 0#4 0xDA ∧
  assembleText "DSCAT 0xF".toList = some 0x300F ∧ decode 0x300F = .dscat 0#4 0x0F ∧
  assembleText "DGATH 0xFE".toList = some 0x40FE ∧ decode 0x40FE = .dgath 0#4 0xFE ∧
  assembleText "PEXT 0xD2".toList = some 0x50D2 ∧ decode 0x50D2 = .pext 0#4 0xD2 ∧
  assembleText "EXTB 0x41, 6".toList = some 0x6641 ∧
  decode 0x6641 = .extb 6 0x41 ∧
  assembleText "HINIB 0x41".toList = some 0x7041 ∧ decode 0x7041 = .hinib 0#4 0x41 ∧
  assembleText "LONIB 0x41".toList = some 0x8041 ∧ decode 0x8041 = .lonib 0#4 0x41 ∧
  assembleText "DUP2 0x41, 0".toList = some 0x9041 ∧
  decode 0x9041 = .dup2 0#4 0x41 ∧
  assembleText ".word 0xA000".toList = some 0xA000 ∧
  decode 0xA000 = .reservedAB 0 0 0x00 ∧ RefusedWith (decode 0xA000) State.reset 0x01

/-- R65: what each assembly form encodes to, and that an operand outside its range is refused. That `.word w` is refused
from 65536 on is DEDUCED from R65's "the 16-bit value w exactly" (log entry 14). -/
def Obligations.AssemblerEncodesInRangeAndRefusesTheRest : Prop :=
  (∀ n : Nibble, assemble (.enc n.toNat) = some (0x0#4 ++ 0x0#4 ++ 0x0#4 ++ n) ∧
    assemble (.dscat n.toNat) = some (0x3#4 ++ 0x0#4 ++ 0x0#4 ++ n)) ∧
  (∀ c : Byte, assemble (.dec c.toNat) = some (0x1#4 ++ 0x0#4 ++ c) ∧
    assemble (.syn c.toNat) = some (0x2#4 ++ 0x0#4 ++ c) ∧
    assemble (.dgath c.toNat) = some (0x4#4 ++ 0x0#4 ++ c) ∧
    assemble (.pext c.toNat) = some (0x5#4 ++ 0x0#4 ++ c) ∧
    assemble (.hinib c.toNat) = some (0x7#4 ++ 0x0#4 ++ c) ∧
    assemble (.lonib c.toNat) = some (0x8#4 ++ 0x0#4 ++ c)) ∧
  (∀ (b : Byte) (i : BitIndex), assemble (.extb b.toNat i.toNat) = some (0x6#4 ++ (0b0#1 ++ i) ++ b) ∧
    assemble (.dup2 b.toNat i.toNat) = some (0x9#4 ++ (0b0#1 ++ i) ++ b)) ∧
  (∀ w : Cmd, assemble (.word w.toNat) = some w) ∧
  (∀ n, 16 ≤ n → assemble (.enc n) = none ∧ assemble (.dscat n) = none) ∧
  (∀ c, 256 ≤ c → assemble (.dec c) = none ∧ assemble (.syn c) = none ∧ assemble (.dgath c) = none ∧
    assemble (.pext c) = none ∧ assemble (.hinib c) = none ∧ assemble (.lonib c) = none) ∧
  (∀ b i, 256 ≤ b ∨ 8 ≤ i → assemble (.extb b i) = none ∧ assemble (.dup2 b i) = none) ∧
  (∀ w, 65536 ≤ w → assemble (.word w) = none) ∧
  (∀ l w, assemble l = some w → (decode w).wellFormed = true ∨ ∃ v, l = .word v)

/-- R65 on the text of a line: an upper-case mnemonic, a space and its operands, two of them separated by a comma and a
space, is read as the line it writes, whichever way each number is written: hexadecimal, binary or decimal. That
lower-case hexadecimal digits are accepted beside the upper-case ones is the model's choice (log entry 11). -/
def Obligations.AssemblyTextIsReadBack : Prop :=
  (∀ n : Nat, ∀ text ∈ literalsOf n,
    assembleText ("ENC ".toList ++ text) = assemble (.enc n) ∧
    assembleText ("DEC ".toList ++ text) = assemble (.dec n) ∧
    assembleText ("SYN ".toList ++ text) = assemble (.syn n) ∧
    assembleText ("DSCAT ".toList ++ text) = assemble (.dscat n) ∧
    assembleText ("DGATH ".toList ++ text) = assemble (.dgath n) ∧
    assembleText ("PEXT ".toList ++ text) = assemble (.pext n) ∧
    assembleText ("HINIB ".toList ++ text) = assemble (.hinib n) ∧
    assembleText ("LONIB ".toList ++ text) = assemble (.lonib n) ∧
    assembleText (".word ".toList ++ text) = assemble (.word n)) ∧
  (∀ b i : Nat, ∀ first ∈ literalsOf b, ∀ second ∈ literalsOf i,
    assembleText ("EXTB ".toList ++ first ++ ", ".toList ++ second) = assemble (.extb b i) ∧
    assembleText ("DUP2 ".toList ++ first ++ ", ".toList ++ second) = assemble (.dup2 b i))

/-! ## Bit-field utilities -/

/-- R101: EXTB. -/
def Obligations.ExtbIsolatesTheIndexedBit : Prop :=
  ∀ (s : State) (b : Byte) (i : BitIndex),
    decode (0b01100#5 ++ i ++ b) = .extb (i.setWidth 4) b ∧
    exec (.extb (i.setWidth 4) b) s =
      .next { s with out := some { res := b &&& (0x01#8 <<< i.toNat), err := false } } ∧
    (∀ k < 8, (b &&& (0x01#8 <<< i.toNat)).getLsbD k = (decide (k = i.toNat) && b.getLsbD k)) ∧
    (b &&& (0x01#8 <<< i.toNat) = 0x00 ∨ b &&& (0x01#8 <<< i.toNat) = BitVec.ofNat 8 (2 ^ i.toNat)) ∧
    (∀ aux : Aux, aux.getLsbD 3 = true →
      exec (.extb aux b) s = .next { s with out := some { res := 0x02, err := true } }) ∧
    (Completes (.extb 7 b) s 0x80 ∨ Completes (.extb 7 b) s 0x00) ∧
    Completes (.extb (i.setWidth 4) 0x00) s 0x00 ∧
    Completes (.extb (i.setWidth 4) 0xFF) s (BitVec.ofNat 8 (2 ^ i.toNat)) ∧
    Completes (.extb 6 0x41) s 0x40

/-- R102: HINIB. -/
def Obligations.HinibGivesTheHighNibble : Prop :=
  ∀ (s : State) (b : Byte),
    decode (0b01110000#8 ++ b) = .hinib 0#4 b ∧
    exec (.hinib 0#4 b) s = .next { s with out := some { res := b >>> 4, err := false } } ∧
    b >>> 4 = (b.extractLsb' 4 4).setWidth 8 ∧ (b >>> 4).toNat < 16 ∧
    (∀ aux : Aux, aux ≠ 0#4 → exec (.hinib aux b) s = .next { s with out := some { res := 0x03, err := true } }) ∧
    Completes (.hinib 0#4 0xFF) s 0x0F ∧ Completes (.hinib 0#4 0x0F) s 0x00 ∧ Completes (.hinib 0#4 0x80) s 0x08 ∧
    Completes (.hinib 0#4 0x41) s 0x04

/-- R103: LONIB, and that the two nibbles give the byte back. -/
def Obligations.LonibGivesTheLowNibble : Prop :=
  ∀ (s : State) (b : Byte),
    decode (0b10000000#8 ++ b) = .lonib 0#4 b ∧
    exec (.lonib 0#4 b) s = .next { s with out := some { res := b &&& 0x0F, err := false } } ∧
    b &&& 0x0F = (b.extractLsb' 0 4).setWidth 8 ∧ (b &&& 0x0F).toNat < 16 ∧
    (∀ aux : Aux, aux ≠ 0#4 → exec (.lonib aux b) s = .next { s with out := some { res := 0x03, err := true } }) ∧
    Completes (.lonib 0#4 0xF0) s 0x00 ∧ Completes (.lonib 0#4 0xFF) s 0x0F ∧ Completes (.lonib 0#4 0x41) s 0x01 ∧
    (∃ h l, Completes (.hinib 0#4 b) s h ∧ Completes (.lonib 0#4 b) s l ∧ (h <<< 4) ||| l = b)

/-- R104: DUP2. -/
def Obligations.DupTwoDoublesTheIndexedBit : Prop :=
  ∀ (s : State) (b : Byte) (i : BitIndex),
    decode (0b10010#5 ++ i ++ b) = .dup2 (i.setWidth 4) b ∧
    exec (.dup2 (i.setWidth 4) b) s =
      .next { s with out := some { res := if b.getLsbD i.toNat then 0x03 else 0x00, err := false } } ∧
    (∀ aux : Aux, aux.getLsbD 3 = true →
      exec (.dup2 aux b) s = .next { s with out := some { res := 0x02, err := true } }) ∧
    Completes (.dup2 (i.setWidth 4) 0x00) s 0x00 ∧ Completes (.dup2 (i.setWidth 4) 0xFF) s 0x03 ∧
    Completes (.dup2 0#4 0x41) s 0x03 ∧ decode 0x9041 = .dup2 0#4 0x41 ∧
    Completes (.dup2 1 0x41) s 0x00 ∧ decode 0x9141 = .dup2 1 0x41

/-! ## Codeword fields -/

/-- R124: DSCAT. -/
def Obligations.DscatPlacesTheDataBits : Prop :=
  ∀ (s : State) (n : Nibble),
    decode (0b001100000000#12 ++ n) = .dscat 0#4 (0#4 ++ n) ∧
    exec (.dscat 0#4 (0#4 ++ n)) s = .next { s with out := some { res := Rule.scatter n, err := false } } ∧
    Rule.scatter n &&& ~~~dataMask = 0x00 ∧
    (∀ (aux : Aux) (opd : Byte), aux ≠ 0#4 →
      exec (.dscat aux opd) s = .next { s with out := some { res := 0x03, err := true } }) ∧
    (∀ opd : Byte, opd.extractLsb' 4 4 ≠ 0#4 →
      exec (.dscat 0#4 opd) s = .next { s with out := some { res := 0x04, err := true } }) ∧
    Completes (.dscat 0#4 0x00) s 0x00 ∧ Completes (.dscat 0#4 0x0F) s 0x2E ∧ dataMask = 0x2E ∧
    Completes (.dscat 0#4 0x04) s 0x08

/-- R125: DGATH, with no check and no correction, and its inverse DSCAT. -/
def Obligations.DgathReadsTheDataBits : Prop :=
  ∀ (s : State) (c : Byte) (n : Nibble),
    decode (0b01000000#8 ++ c) = .dgath 0#4 c ∧
    exec (.dgath 0#4 c) s = .next { s with out := some { res := (Rule.gather c).setWidth 8, err := false } } ∧
    (∀ aux : Aux, aux ≠ 0#4 → exec (.dgath aux c) s = .next { s with out := some { res := 0x03, err := true } }) ∧
    exec (.dgath 0#4 c) s = exec (.dgath 0#4 (c &&& dataMask)) s ∧
    (∃ d, Completes (.dscat 0#4 (0#4 ++ n)) s d ∧ Completes (.dgath 0#4 d) s (n.setWidth 8)) ∧
    (∃ d, Completes (.dgath 0#4 c) s d ∧ Completes (.dscat 0#4 d) s (c &&& dataMask)) ∧
    Completes (.dgath 0#4 0xFE) s 0x0F ∧ Completes (.dgath 0#4 0x98) s 0x04

/-- R126: PEXT. -/
def Obligations.PextReadsTheStoredParityBits : Prop :=
  ∀ (s : State) (c : Byte),
    decode (0b01010000#8 ++ c) = .pext 0#4 c ∧
    exec (.pext 0#4 c) s = .next { s with out := some { res := (Rule.parity c).setWidth 8, err := false } } ∧
    (∀ p ∈ parityPositions, (Rule.parity c).toNat &&& weight p ≠ 0 ↔ c.getLsbD p = true) ∧
    (∀ aux : Aux, aux ≠ 0#4 → exec (.pext aux c) s = .next { s with out := some { res := 0x03, err := true } }) ∧
    exec (.pext 0#4 c) s = exec (.pext 0#4 (c &&& parityMask)) s ∧ (Rule.parity c).toNat ≤ 7 ∧
    Completes (.pext 0#4 parityMask) s 0x07 ∧ parityMask = 0xD0 ∧
    Completes (.pext 0#4 0xD2) s 0x07 ∧ Completes (.pext 0#4 0x98) s 0x05

/-- R120, R121, R122: the layout, its masks, the covering sets and the weights; and the covering sets are the only
ones under which a flip at bit i of 7..1 makes the weights of the failing checks add up to its Hamming position. -/
def Obligations.CoveringSetsAreForced : Prop :=
  (dataLayout = [(5, 3), (3, 2), (2, 1), (1, 0)] ∧ parityPositions = [7, 6, 4] ∧
    [7, 6, 5, 4, 3, 2, 1].map hammingPosition = [1, 2, 3, 4, 5, 6, 7]) ∧
  (∀ k : Nat, k < 8 → dataMask.getLsbD k = decide (k ∈ dataLayout.map Prod.fst) ∧
    parityMask.getLsbD k = decide (k ∈ parityPositions) ∧ unusedMask.getLsbD k = decide (k = 0)) ∧
  (dataMask &&& parityMask = 0 ∧ dataMask &&& unusedMask = 0 ∧ parityMask &&& unusedMask = 0 ∧
    dataMask ||| parityMask ||| unusedMask = 0xFF) ∧
  ((covering 7).map hammingPosition = [1, 3, 5, 7] ∧ (covering 6).map hammingPosition = [2, 3, 6, 7] ∧
    (covering 4).map hammingPosition = [4, 5, 6, 7]) ∧
  ((dataLayout.filter fun e => e.1 ∈ covering 7).map Prod.snd = [3, 2, 0] ∧
    (dataLayout.filter fun e => e.1 ∈ covering 6).map Prod.snd = [3, 1, 0] ∧
    (dataLayout.filter fun e => e.1 ∈ covering 4).map Prod.snd = [2, 1, 0]) ∧
  (∀ p ∈ parityPositions, weight p = hammingPosition p ∧ (covering p).length = 4 ∧ p ∈ covering p ∧
    0 ∉ covering p ∧ ∀ q ∈ parityPositions, q ≠ p → q ∉ covering p) ∧
  (∀ member : Nat → Nat → Bool,
    (∀ i, 1 ≤ i → i ≤ 7 →
      (parityPositions.map fun p => if member p i then weight p else 0).sum = hammingPosition i) ↔
    (∀ p ∈ parityPositions, ∀ i, 1 ≤ i → i ≤ 7 → member p i = decide (i ∈ covering p)))

/-! ## The codec -/

/-- R141 with R140: ENC. -/
def Obligations.EncGivesTheCodeword : Prop :=
  ∀ (s : State) (n : Nibble),
    decode (0b000000000000#12 ++ n) = .enc 0#4 (0#4 ++ n) ∧
    exec (.enc 0#4 (0#4 ++ n)) s = .next { s with out := some { res := Rule.encode n, err := false } } ∧
    Rule.encode n = Rule.encodeTable.getD n.toNat 0 ∧
    (Rule.encode n).getLsbD 0 = false ∧
    (∀ p ∈ parityPositions, (Rule.encode n).getLsbD p = xorBits (Rule.scatter n) (coveredData p)) ∧
    (∀ p ∈ parityPositions, parityCheck p (Rule.encode n) = false) ∧
    Completes (.syn 0#4 (Rule.encode n)) s 0x00 ∧
    (∀ m : Nibble, m ≠ n → 3 ≤ distance (Rule.encode m) (Rule.encode n)) ∧
    (∀ (aux : Aux) (opd : Byte), aux ≠ 0#4 →
      exec (.enc aux opd) s = .next { s with out := some { res := 0x03, err := true } }) ∧
    (∀ opd : Byte, opd.extractLsb' 4 4 ≠ 0#4 →
      exec (.enc 0#4 opd) s = .next { s with out := some { res := 0x04, err := true } }) ∧
    Completes (.enc 0#4 0x00) s 0x00 ∧ Completes (.enc 0#4 0x0F) s 0xFE ∧ Completes (.enc 0#4 0x04) s 0x98

/-- R142: SYN, its bits being the checks of R123, each 0 exactly when the stored parity bit is the recomputed one. -/
def Obligations.SynGivesTheSyndrome : Prop :=
  ∀ (s : State) (c : Byte),
    decode (0b00100000#8 ++ c) = .syn 0#4 c ∧
    exec (.syn 0#4 c) s = .next { s with out := some { res := (Rule.syndrome c).setWidth 8, err := false } } ∧
    (Rule.syndrome c).toNat = (if parityCheck 7 c then 1 else 0) + (if parityCheck 6 c then 2 else 0) +
      (if parityCheck 4 c then 4 else 0) ∧
    (∀ p ∈ parityPositions, parityCheck p c = xorBits c (covering p) ∧
      (parityCheck p c = false ↔ c.getLsbD p = xorBits c (coveredData p))) ∧
    (∀ aux : Aux, aux ≠ 0#4 → exec (.syn aux c) s = .next { s with out := some { res := 0x03, err := true } }) ∧
    exec (.syn 0#4 c) s = exec (.syn 0#4 (c ^^^ 0x01)) s ∧
    (∀ n : Nibble, ∃ x, Completes (.enc 0#4 (0#4 ++ n)) s x ∧ Completes (.syn 0#4 x) s 0x00 ∧
      ∀ p : Nat, 1 ≤ p → p ≤ 7 → Completes (.syn 0#4 (flipBit x p)) s (BitVec.ofNat 8 (8 - p))) ∧
    Completes (.syn 0#4 0xDA) s 0x05

/-- R143: DEC. -/
def Obligations.DecCorrectsTheNamedBit : Prop :=
  ∀ (s : State) (c : Byte),
    decode (0b00010000#8 ++ c) = .dec 0#4 c ∧
    exec (.dec 0#4 c) s =
      .next { s with out := some { res := (Rule.gather (Rule.corrected c)).setWidth 8, err := false } } ∧
    (∀ aux : Aux, aux ≠ 0#4 → exec (.dec aux c) s = .next { s with out := some { res := 0x03, err := true } }) ∧
    (Rule.syndrome c = 0 ∨ Rule.syndrome c = 1 ∨ Rule.syndrome c = 2 ∨ Rule.syndrome c = 4 →
      Rule.gather (Rule.corrected c) = Rule.gather c) ∧
    (Rule.syndrome c = 3 ∨ Rule.syndrome c = 5 ∨ Rule.syndrome c = 6 ∨ Rule.syndrome c = 7 →
      ∃ k < 4, Rule.gather (Rule.corrected c) = Rule.gather c ^^^ (0x1#4 <<< k)) ∧
    exec (.dec 0#4 c) s = exec (.dec 0#4 (c ^^^ 0x01)) s ∧
    (Rule.syndrome c ≠ 0 → 1 ≤ 8 - (Rule.syndrome c).toNat ∧ 8 - (Rule.syndrome c).toNat ≤ 7) ∧
    Completes (.dec 0#4 0x90) s 0x04

/-- R144: DEC inverts ENC and corrects any one flipped bit, bit 0 included. -/
def Obligations.DecInvertsEncUnderOneFlip : Prop :=
  ∀ (s : State) (n : Nibble), ∃ x, Completes (.enc 0#4 (0#4 ++ n)) s x ∧
    ∀ t : State, Completes (.dec 0#4 x) t (n.setWidth 8) ∧
      ∀ p : Nat, p < 8 → Completes (.dec 0#4 (flipBit x p)) t (n.setWidth 8)

/-- R145: the values of the syndrome, its decomposition through PEXT, ENC and DGATH, and its linearity. -/
def Obligations.SyndromeValuesAndLinearity : Prop :=
  (∀ (s : State) (n : Nibble), ∃ x, Completes (.enc 0#4 (0#4 ++ n)) s x ∧ Completes (.syn 0#4 x) s 0x00 ∧
    (∀ p : Nat, 1 ≤ p → p ≤ 7 → Completes (.syn 0#4 (flipBit x p)) s (BitVec.ofNat 8 (8 - p))) ∧
    Completes (.syn 0#4 (x ^^^ 0x01)) s 0x00) ∧
  (∀ (s : State) (c : Byte), ∃ v p d x q, Completes (.syn 0#4 c) s v ∧ Completes (.pext 0#4 c) s p ∧
    Completes (.dgath 0#4 c) s d ∧ Completes (.enc 0#4 d) s x ∧ Completes (.pext 0#4 x) s q ∧ v = p ^^^ q) ∧
  (∀ (s : State) (c e : Byte), ∃ v u, Completes (.syn 0#4 c) s v ∧ Completes (.syn 0#4 e) s u ∧
    Completes (.syn 0#4 (c ^^^ e)) s (v ^^^ u))

/-- R146: DEC is defined on every byte: its value is the one nibble whose codeword is within one flip of the
byte at bits 7..1. Sixteen bytes decode to each nibble, two or more flips give another nibble, unsignalled. -/
def Obligations.DecGivesTheNearestCodeword : Prop :=
  (∀ (s : State) (c : Byte), ∃ n : Nibble, Completes (.dec 0#4 c) s (n.setWidth 8) ∧
    ∀ m : Nibble, distance c (Rule.encode m) ≤ 1 ↔ m = n) ∧
  (∀ (s : State) (n : Nibble), ∃ bytes : List Byte, bytes.Nodup ∧ bytes.length = 16 ∧
    ∀ c : Byte, Completes (.dec 0#4 c) s (n.setWidth 8) ↔ c ∈ bytes) ∧
  (∀ (s : State) (n : Nibble) (c : Byte), 2 ≤ distance c (Rule.encode n) →
    ∃ m : Nibble, m ≠ n ∧ Completes (.dec 0#4 c) s (m.setWidth 8)) ∧
  (∀ s : State, flipBit (flipBit 0x00 7) 6 = 0xC0 ∧ Completes (.syn 0#4 0xC0) s 0x03 ∧ flipBit 0xC0 5 = 0xE0 ∧
    Completes (.enc 0#4 0x08) s 0xE0 ∧ Completes (.dec 0#4 0xC0) s 0x08)

/-- R147: bit 0 of a DEC or SYN operand is ignored, not refused. -/
def Obligations.BitZeroIsIgnored : Prop :=
  ∀ (s : State) (c : Byte), ∃ d v,
    exec (.dec 0#4 c) s = .next { s with out := some { res := d, err := false } } ∧
    exec (.dec 0#4 (c ^^^ 0x01)) s = .next { s with out := some { res := d, err := false } } ∧
    exec (.syn 0#4 c) s = .next { s with out := some { res := v, err := false } } ∧
    exec (.syn 0#4 (c ^^^ 0x01)) s = .next { s with out := some { res := v, err := false } }

/-- A byte split by HINIB and LONIB, encoded, one bit of each codeword flipped, decoded and recombined by the
host is the byte again (R41, R103, R144). -/
def Obligations.ByteSurvivesOneFlipPerCodeword : Prop :=
  ∀ (s : State) (b : Byte) (p q : Nat), p < 8 → q < 8 → ∃ h l ch cl dh dl,
    Completes (.hinib 0#4 b) s h ∧ Completes (.lonib 0#4 b) s l ∧
    Completes (.enc 0#4 h) s ch ∧ Completes (.enc 0#4 l) s cl ∧
    Completes (.dec 0#4 (flipBit ch p)) s dh ∧ Completes (.dec 0#4 (flipBit cl q)) s dl ∧
    (dh <<< 4) ||| dl = b

/-! ## Refusals and the outputs -/

/-- The reserved opcodes complete in their refusal: E_OPCODE, whatever the other fields hold (R64, R172). -/
def Obligations.ReservedOpcodesGiveEOpcode : Prop :=
  ∀ (s : State) (aux : Aux) (opd : Byte),
    (∀ sel : BitVec 1,
      exec (.reservedAB sel aux opd) s = .next { s with out := some { res := 0x01, err := true } } ∧
      encode (.reservedAB sel aux opd) = 0b101#3 ++ sel ++ aux ++ opd) ∧
    (∀ sel : BitVec 2,
      exec (.reservedCF sel aux opd) s = .next { s with out := some { res := 0x01, err := true } } ∧
      encode (.reservedCF sel aux opd) = 0b11#2 ++ sel ++ aux ++ opd)

/-- R64: exactly these values are illegal, and 5664 are legal. -/
def Obligations.IllegalCommandsAreExactlyThese : Prop :=
  (∀ (s : State) (w : Cmd),
    (0xA#4 ≤ opField w → RefusedWith (decode w) s 0x01) ∧
    (opField w ∈ [0x0#4, 0x1#4, 0x2#4, 0x3#4, 0x4#4, 0x5#4, 0x7#4, 0x8#4] → auxField w ≠ 0 →
      RefusedWith (decode w) s 0x03) ∧
    (opField w ∈ [0x6#4, 0x9#4] → (auxField w).getLsbD 3 = true → RefusedWith (decode w) s 0x02) ∧
    (opField w ∈ [0x0#4, 0x3#4] → auxField w = 0 → (opdField w).extractLsb' 4 4 ≠ 0#4 →
      RefusedWith (decode w) s 0x04) ∧
    (¬(0xA#4 ≤ opField w) →
      ¬(opField w ∈ [0x0#4, 0x1#4, 0x2#4, 0x3#4, 0x4#4, 0x5#4, 0x7#4, 0x8#4] ∧ auxField w ≠ 0) →
      ¬(opField w ∈ [0x6#4, 0x9#4] ∧ (auxField w).getLsbD 3 = true) →
      ¬(opField w ∈ [0x0#4, 0x3#4] ∧ (opdField w).extractLsb' 4 4 ≠ 0#4) →
      ∃ v, Completes (decode w) s v)) ∧
  ((List.range 65536).filter fun k => decide (0xA#4 ≤ opField (BitVec.ofNat 16 k))).length = 24576 ∧
  ((List.range 65536).filter fun k => (decode (BitVec.ofNat 16 k)).wellFormed).length = 5664

/-- R172: which command is refused with which cause code, and that no other code is driven with `err = 1`. -/
def Obligations.CauseCodesAreDrivenForTheirCauses : Prop :=
  ∀ (s : State) (w : Cmd),
    (RefusedWith (decode w) s 0x01 ↔ 0xA#4 ≤ opField w) ∧
    (RefusedWith (decode w) s 0x02 ↔ (opField w = 0x6 ∨ opField w = 0x9) ∧ 8 ≤ (auxField w).toNat) ∧
    (RefusedWith (decode w) s 0x03 ↔
      opField w ∈ [0x0#4, 0x1#4, 0x2#4, 0x3#4, 0x4#4, 0x5#4, 0x7#4, 0x8#4] ∧ auxField w ≠ 0) ∧
    (RefusedWith (decode w) s 0x04 ↔
      (opField w = 0x0 ∨ opField w = 0x3) ∧ auxField w = 0 ∧ (opdField w).extractLsb' 4 4 ≠ 0#4) ∧
    (∀ code : Byte, RefusedWith (decode w) s code → 0x01 ≤ code ∧ code ≤ 0x04)

/-- The check that WellFormed names is the one a command is refused by, and a well-formed command completes. -/
def Obligations.RefusedExactlyWhenIllFormed : Prop :=
  ∀ (i : Instr) (s : State),
    (∀ c, i.defect = some c → exec i s = .next { s with out := some { res := causeCode c, err := true } }) ∧
    (i.wellFormed = true → ∃ v, exec i s = .next { s with out := some { res := v, err := false } })

/-- R24: a result, its bits above the operation's result width 0, or a cause code; always those of R173. -/
def Obligations.OutputsAreAResultOrACauseCode : Prop :=
  ∀ i : Instr, ∃ o : Outputs, (∀ s, exec i s = .next { s with out := some o }) ∧
    o = eval (encode i) ∧
    ((o.err = false ∧ i.wellFormed = true ∧ o.res.toNat < 2 ^ resultWidth i) ∨
     (o.err = true ∧ ∃ c, i.defect = some c ∧ o.res = causeCode c))

/-- R43: a command drives both outputs, from its own fields alone, touches nothing else and is idempotent. -/
def Obligations.EveryCommandDrivesOnlyTheOutputs : Prop :=
  ∀ i : Instr, ∃ o : Outputs, ∀ s : State, ∃ t : State,
    exec i s = .next t ∧ t.out = some o ∧ t.cmd = s.cmd ∧ t.pending = s.pending ∧ t.samples = s.samples ∧
    exec i t = .next t

/-- R171: a refused command drives `err` and its code and does nothing else, and the next command is evaluated as
if it had never been presented. (The host's list of acts is the model's, log entry 1.) -/
def Obligations.RefusedCommandLeavesNothingBehind : Prop :=
  ∀ (s : State) (w next : Cmd) (rest : List HostAct) (c : Cause), (decode w).defect = some c →
    ∃ t u : State,
      step (s.presenting w (.present next :: rest)) = .next t ∧
      t = { cmd := some w, out := some { res := causeCode c, err := true }, pending := .present next :: rest,
            samples := s.samples } ∧
      step t = .next u ∧ step (s.presenting next rest) = .next u

/-! ## The machine -/

/-- A presented command is on `cmd`, the host goes on to its next action, and the decoded command is executed. The list
of acts and the one step are the model's choice (log entries 1 and 13). -/
def Obligations.StepRunsTheDecodedCommand : Prop :=
  ∀ (s : State) (w : Cmd) (rest : List HostAct), s.pending = .present w :: rest →
    step s = exec (decode w) { s with cmd := some w, pending := rest }

/-- R12 and R173: one step on a presented command is one evaluation of the pseudocode, from every state. That the host's
commands stand in a list of the state (log entry 1) and that presenting and evaluating are one step with no state in
between (log entry 13) is the model's choice. -/
def Obligations.MachineRefinesEval : Prop :=
  (∀ (s : State) (w : Cmd) (rest : List HostAct),
    step (s.presenting w rest) =
      .next { cmd := some w, out := some (eval w), pending := rest, samples := s.samples }) ∧
  eval 0x0110 = { res := 0x03, err := true }

/-- R26 and R46 on one block: two evaluations of one command give the same outputs, whatever came before. -/
def Obligations.OutputsDependOnTheCommandAlone : Prop :=
  ∀ (s s' : State) (w : Cmd) (rest rest' : List HostAct), ∃ t t' : State,
    step (s.presenting w rest) = .next t ∧ step (s'.presenting w rest') = .next t' ∧
    t.out = t'.out ∧ t.out ≠ none

/-- R29, R200: before the first command a sample faults, and after one it does not have that fault. The fault's name, the
sample as a step, and this fault coming first are the model's choice (log entries 1 and 6). -/
def Obligations.SampleBeforeTheFirstCommandFaults : Prop :=
  ∀ (s : State) (stable : Bool) (waited : Nat) (rest : List HostAct),
    (s.out = none → step { s with pending := .sample stable waited :: rest } = .fault .outputsUnspecified) ∧
    (∀ o, s.out = some o → step { s with pending := .sample stable waited :: rest } ≠ .fault .outputsUnspecified)

/-- R203: a sample of an unstable `cmd`, or before T_SETTLE, is a fault and no value; a settled one reads the
outputs and changes nothing at the ports. T_SETTLE is free: this holds for every value of it. Which of the two faults
a sample that breaks both duties gets is the model's choice (log entry 6). -/
def Obligations.OnlySettledSamplesHaveAValue : Prop :=
  ∀ (s : State) (o : Outputs) (stable : Bool) (waited : Nat) (rest : List HostAct), s.out = some o →
    step { s with pending := .sample stable waited :: rest } =
      if stable = false then .fault .sampledWhileChanging
      else if waited < Config.tSettle then .fault .sampledTooEarly
      else .next { s with pending := rest, samples := s.samples ++ [o] }

/-- R200: before the first command the outputs have no value and a read of them faults; once a command has been
presented they are `eval(cmd)`, from reset as from any state. The model's own in it: no command on `cmd` at reset is
DEDUCED (log entry 2); the sample as a step, the fault's name, and its coming first even for an unstable or early
sample are DESIGN CHOICES (log entries 1 and 6). -/
def Obligations.NothingIsOnThePortsAtReset : Prop :=
  State.reset.cmd = none ∧ State.reset.out = none ∧
  (∀ (stable : Bool) (waited : Nat) (rest : List HostAct),
    step { State.reset with pending := .sample stable waited :: rest } = .fault .outputsUnspecified) ∧
  (∀ (w : Cmd) (s : State), ∃ t u : State, step (State.reset.presenting w []) = .next t ∧
    step (s.presenting w []) = .next u ∧ t.out = some (eval w) ∧ u.out = some (eval w))

/-- The invariant holds at reset. This rests on the model's reset values: `cmd` and `out` absent together (DEDUCED, log
entry 2) and no sample recorded (DESIGN CHOICE, log entry 4). -/
def Obligations.ResetMeetsThePortInvariant : Prop := State.reset.Inv

/-- The outputs are those of the command now on `cmd`, and every sample taken is the outputs of one whole
command: every step keeps this (R25, R200, R203). The record of samples is the model's choice (log entry 4). -/
def Obligations.StepKeepsThePortInvariant : Prop :=
  ∀ s t : State, s.Inv → step s = .next t → t.Inv

/-- R206: a run is the list of evaluations of the commands presented, in order; it ends with the last outputs. The host's
list of acts, the record of its samples and its wait as data are the model's choice (log entries 1, 4 and 5). -/
def Obligations.RunIsTheListOfEvaluations : Prop :=
  ∀ (cmds : List Cmd) (waited : Nat) (s : State), Config.tSettle ≤ waited →
    core.run (2 * cmds.length) { s with pending := sampledRun waited cmds } =
      .next { cmd := cmds.getLast?.or s.cmd, out := (cmds.getLast?.map eval).or s.out, pending := [],
              samples := s.samples ++ cmds.map eval }

/-- Every step of a host that keeps its duties (R29, R203) answers a next state, and leaves it keeping them. The host's
list of acts, the idle step when none is left and the wait as data are the model's choice (log entries 1, 3 and 5). -/
def Obligations.StepKeepsAHostDutiful : Prop :=
  ∀ s : State, HostKeepsDuties s.out.isSome s.pending →
    ∃ t : State, step s = .next t ∧ HostKeepsDuties t.out.isSome t.pending

/-- A host that keeps its duties (R29, R203) never faults, for however many steps. It may take more steps than it has
acts because of the idle step (log entry 3); its list of acts and its wait as data are the model's choice too (log
entries 1 and 5). -/
def Obligations.DutifulHostNeverFaults : Prop :=
  ∀ (k : Nat) (s : State), HostKeepsDuties s.out.isSome s.pending → ∃ t : State, core.run k s = .next t

/-- R206: the block itself never stops: a step answers a next state unless the host's own sample faults. That a step with
no act left keeps the state, and the names of the faults, are the model's choice (log entries 3 and 6). -/
def Obligations.TheBlockNeverStops : Prop :=
  ∀ s : State,
    (∃ t, step s = .next t) ∨
    (∃ stable waited rest, s.pending = .sample stable waited :: rest ∧
      ((step s = .fault .outputsUnspecified ∧ s.out = none) ∨
       (step s = .fault .sampledWhileChanging ∧ stable = false) ∨
       (step s = .fault .sampledTooEarly ∧ waited < Config.tSettle)))

/-- R179: instances share nothing: a step of one leaves every other as it was, a command presented to one gives its
own `eval(cmd)`, and steps of two instances give the same system in either order. One instance stepping at a time is the
model's choice, and so is what a faulting host sample does to a system (log entry 8): its step ends in that fault, and
this statement is about steps that answer a next system. -/
def Obligations.InstancesShareNothing : Prop :=
  ∀ (sys a b : System) (j k : Nat), j ≠ k → systemStep j sys = .next a → systemStep k sys = .next b →
    a.length = sys.length ∧ (∀ m, m ≠ j → a[m]? = sys[m]?) ∧
    (∀ (s : State) (w : Cmd) (rest : List HostAct), sys[j]? = some (s.presenting w rest) →
      ∃ t : State, a[j]? = some t ∧ t.out = some (eval w)) ∧
    ∃ c, systemStep k a = .next c ∧ systemStep j b = .next c
end

