-- ==== Sys2Proof/Laws/Encoding.lean ====
section
/-! SUPPORT. The fields of a command word (R60). -/

namespace Sys2Proof

@[simp] theorem opField_commandWord (op : Opcode) (aux : Aux) (opd : Byte) :
    opField (commandWord op aux opd) = op := by
  apply BitVec.eq_of_getLsbD_eq
  intro i hi
  simp only [opField, commandWord, BitVec.getLsbD_extractLsb', BitVec.getLsbD_append]
  have h1 : ¬ (12 + i < 8) := by omega
  have h2 : ¬ (12 + i - 8 < 4) := by omega
  have h3 : 12 + i - 8 - 4 = i := by omega
  simp only [hi, h1, h2, h3, decide_true, Bool.true_and, if_false]

@[simp] theorem auxField_commandWord (op : Opcode) (aux : Aux) (opd : Byte) :
    auxField (commandWord op aux opd) = aux := by
  apply BitVec.eq_of_getLsbD_eq
  intro i hi
  simp only [auxField, commandWord, BitVec.getLsbD_extractLsb', BitVec.getLsbD_append]
  have h1 : ¬ (8 + i < 8) := by omega
  have h2 : 8 + i - 8 < 4 := by omega
  simp [hi]

@[simp] theorem opdField_commandWord (op : Opcode) (aux : Aux) (opd : Byte) :
    opdField (commandWord op aux opd) = opd := by
  apply BitVec.eq_of_getLsbD_eq
  intro i hi
  simp only [opdField, commandWord, BitVec.getLsbD_extractLsb', BitVec.getLsbD_append]
  simp [hi]

/-- A command word is its three fields. -/
theorem commandWord_fields (w : Cmd) : commandWord (opField w) (auxField w) (opdField w) = w := by
  apply BitVec.eq_of_getLsbD_eq
  intro i hi
  simp only [opField, auxField, opdField, commandWord, BitVec.getLsbD_append, BitVec.getLsbD_extractLsb']
  by_cases h1 : i < 8
  · simp [h1]
  · by_cases h2 : i - 8 < 4
    · have : 8 + (i - 8) = i := by omega
      simp [h1, h2, this]
    · have : 12 + (i - 8 - 4) = i := by omega
      simp [h1, h2, this]
      omega

end Sys2Proof
end

