-- ==== Sys2Proof/Laws/State.lean ====
section
/-! SUPPORT. One lemma per field per update of State. -/

namespace Sys2Proof.Machine

@[simp] theorem State.drive_cmd (s : State) (o : Outputs) : (s.drive o).cmd = s.cmd := rfl
@[simp] theorem State.drive_out (s : State) (o : Outputs) : (s.drive o).out = some o := rfl
@[simp] theorem State.drive_pending (s : State) (o : Outputs) : (s.drive o).pending = s.pending := rfl
@[simp] theorem State.drive_samples (s : State) (o : Outputs) : (s.drive o).samples = s.samples := rfl

@[simp] theorem State.presentCmd_cmd (s : State) (w : Cmd) : (s.presentCmd w).cmd = some w := rfl
@[simp] theorem State.presentCmd_out (s : State) (w : Cmd) : (s.presentCmd w).out = s.out := rfl
@[simp] theorem State.presentCmd_pending (s : State) (w : Cmd) : (s.presentCmd w).pending = s.pending := rfl
@[simp] theorem State.presentCmd_samples (s : State) (w : Cmd) : (s.presentCmd w).samples = s.samples := rfl

@[simp] theorem State.advanceHost_cmd (s : State) (r : List HostAct) : (s.advanceHost r).cmd = s.cmd := rfl
@[simp] theorem State.advanceHost_out (s : State) (r : List HostAct) : (s.advanceHost r).out = s.out := rfl
@[simp] theorem State.advanceHost_pending (s : State) (r : List HostAct) : (s.advanceHost r).pending = r := rfl
@[simp] theorem State.advanceHost_samples (s : State) (r : List HostAct) :
    (s.advanceHost r).samples = s.samples := rfl

@[simp] theorem State.recordSample_cmd (s : State) (o : Outputs) : (s.recordSample o).cmd = s.cmd := rfl
@[simp] theorem State.recordSample_out (s : State) (o : Outputs) : (s.recordSample o).out = s.out := rfl
@[simp] theorem State.recordSample_pending (s : State) (o : Outputs) :
    (s.recordSample o).pending = s.pending := rfl
@[simp] theorem State.recordSample_samples (s : State) (o : Outputs) :
    (s.recordSample o).samples = s.samples ++ [o] := rfl

/-- Only the last drive of the outputs shows. -/
@[simp] theorem State.drive_drive (s : State) (o o' : Outputs) : (s.drive o).drive o' = s.drive o' := rfl

end Sys2Proof.Machine
end

