-- ==== Sys2Proof/Laws/Ops.lean ====
section
/-! SUPPORT. What each shared operation can do, said once. -/

namespace Sys2Proof.Machine

theorem complete_eq (v : Byte) (s : State) : complete v s = .next (s.drive { res := v, err := false }) := rfl

theorem raise_eq (c : Cause) (s : State) : raise c s = .next (s.drive { res := causeCode c, err := true }) := rfl

@[simp] theorem answer_ok (v : Byte) (s : State) : answer (.ok v) s = complete v s := rfl

@[simp] theorem answer_error (c : Cause) (s : State) : answer (.error c) s = raise c s := rfl

/-- An evaluation's outputs depend on its operands alone, and it drives nothing but them. -/
theorem answer_drives (r : Except Cause Byte) : ∃ o, ∀ s : State, answer r s = .next (s.drive o) := by
  cases r with
  | ok v => exact ⟨_, fun s => complete_eq v s⟩
  | error c => exact ⟨_, fun s => raise_eq c s⟩

/-- A nibble operand is legal exactly when it and `aux` are in range, else refused by the first failing check. -/
theorem nibbleOperand_cases (aux : Aux) (opd : Byte) :
    (aux ≠ 0#4 ∧ nibbleOperand aux opd = .error .eField) ∨
    (aux = 0#4 ∧ opd.extractLsb' 4 4 ≠ 0#4 ∧ nibbleOperand aux opd = .error .eOperand) ∨
    (aux = 0#4 ∧ opd.extractLsb' 4 4 = 0#4 ∧ nibbleOperand aux opd = .ok (opd.extractLsb' 0 4)) := by
  unfold nibbleOperand
  split
  · exact .inl ⟨‹_›, rfl⟩
  · split
    · exact .inr (.inl ⟨not_not.mp ‹_›, ‹_›, rfl⟩)
    · exact .inr (.inr ⟨not_not.mp ‹_›, not_not.mp ‹_›, rfl⟩)

/-- The high four bits of a byte are 0 exactly when its value is a nibble's. -/
theorem high_nibble_zero_iff (opd : Byte) : opd.extractLsb' 4 4 = 0#4 ↔ opd.toNat < 16 := by
  revert opd; decide

theorem byteOperand_zero (opd : Byte) : byteOperand 0#4 opd = .ok opd := rfl

theorem byteOperand_field (aux : Aux) (opd : Byte) (h : aux ≠ 0#4) : byteOperand aux opd = .error .eField := by
  simp [byteOperand, h]

theorem indexedOperand_ok (aux : Aux) (opd : Byte) (h : aux.getLsbD 3 = false) :
    indexedOperand aux opd = .ok (opd, aux.extractLsb' 0 3) := by
  unfold indexedOperand
  rw [h]
  rfl

theorem indexedOperand_index (aux : Aux) (opd : Byte) (h : aux.getLsbD 3 = true) :
    indexedOperand aux opd = .error .eIndex := by
  unfold indexedOperand
  rw [h]
  rfl

theorem onNibble_drives (f : Nibble → Byte) (aux : Aux) (opd : Byte) :
    ∃ o, ∀ s : State, onNibble f aux opd s = .next (s.drive o) := answer_drives _

theorem onByte_drives (f : Byte → Byte) (aux : Aux) (opd : Byte) :
    ∃ o, ∀ s : State, onByte f aux opd s = .next (s.drive o) := answer_drives _

theorem onIndexed_drives (f : Byte → BitIndex → Byte) (aux : Aux) (opd : Byte) :
    ∃ o, ∀ s : State, onIndexed f aux opd s = .next (s.drive o) := answer_drives _

/-- A legal nibble command, its operand written as the nibble it is. -/
theorem onNibble_legal (f : Nibble → Byte) (n : Nibble) (s : State) :
    onNibble f 0#4 (0#4 ++ n) s = complete (f n) s := by
  have h : nibbleOperand 0#4 (0#4 ++ n) = .ok n := by revert n; decide
  simp [onNibble, h, Except.map]

/-- A legal byte command. -/
theorem onByte_legal (f : Byte → Byte) (c : Byte) (s : State) : onByte f 0#4 c s = complete (f c) s := rfl

/-- A legal indexed command, its `aux` written as the index it holds. -/
theorem onIndexed_legal (f : Byte → BitIndex → Byte) (i : BitIndex) (b : Byte) (s : State) :
    onIndexed f (i.setWidth 4) b s = complete (f b i) s := by
  have h3 : (i.setWidth 4).getLsbD 3 = false := by revert i; decide
  have hi : (i.setWidth 4).extractLsb' 0 3 = i := by revert i; decide
  simp [onIndexed, indexedOperand_ok _ _ h3, hi, Except.map]

/-- What a host sample can do: a named fault, or a settled read that only adds to what the host has read. -/
theorem hostSample_cases (stable : Bool) (waited : Nat) (s : State) :
    (s.out = none ∧ hostSample stable waited s = .fault .outputsUnspecified) ∨
    (∃ o, s.out = some o ∧ stable = false ∧ hostSample stable waited s = .fault .sampledWhileChanging) ∨
    (∃ o, s.out = some o ∧ stable = true ∧ waited < Config.tSettle ∧
      hostSample stable waited s = .fault .sampledTooEarly) ∨
    (∃ o, s.out = some o ∧ stable = true ∧ Config.tSettle ≤ waited ∧
      hostSample stable waited s = .next (s.recordSample o)) := by
  unfold hostSample readOutputs
  cases hout : s.out with
  | none => exact .inl ⟨rfl, rfl⟩
  | some o =>
    cases stable with
    | false => exact .inr (.inl ⟨o, rfl, rfl, rfl⟩)
    | true =>
      by_cases hw : waited < Config.tSettle
      · exact .inr (.inr (.inl ⟨o, rfl, rfl, hw, by simp [hw]⟩))
      · exact .inr (.inr (.inr ⟨o, rfl, rfl, not_lt.mp hw, by simp [hw]⟩))

/-- The three shapes of a step. -/
theorem step_idle (s : State) (h : s.pending = []) : step s = .next s := by
  simp [step, h, hostIdle]

theorem step_present (s : State) (w : Cmd) (rest : List HostAct) (h : s.pending = .present w :: rest) :
    step s = exec (decode w) ((s.advanceHost rest).presentCmd w) := by
  simp [step, h]

theorem step_sample (s : State) (stable : Bool) (waited : Nat) (rest : List HostAct)
    (h : s.pending = .sample stable waited :: rest) :
    step s = hostSample stable waited (s.advanceHost rest) := by
  simp [step, h]

end Sys2Proof.Machine
end

