-- ==== Sys2Proof/Laws/PerInstr.lean ====
section
/-! SUPPORT. Statements made per constructor of Instr (LAWS.json). -/

namespace Sys2Proof.Laws.RoundTrip

/-- The decoder reads a command back from its word. -/
def Statement (i : Instr) : Prop := decode (encode i) = i

theorem enc (aux : Aux) (opd : Byte) : Statement (.enc aux opd) := by simp [Statement, encode, decode]
theorem dec (aux : Aux) (opd : Byte) : Statement (.dec aux opd) := by simp [Statement, encode, decode]
theorem syn (aux : Aux) (opd : Byte) : Statement (.syn aux opd) := by simp [Statement, encode, decode]
theorem dscat (aux : Aux) (opd : Byte) : Statement (.dscat aux opd) := by simp [Statement, encode, decode]
theorem dgath (aux : Aux) (opd : Byte) : Statement (.dgath aux opd) := by simp [Statement, encode, decode]
theorem pext (aux : Aux) (opd : Byte) : Statement (.pext aux opd) := by simp [Statement, encode, decode]
theorem extb (aux : Aux) (opd : Byte) : Statement (.extb aux opd) := by simp [Statement, encode, decode]
theorem hinib (aux : Aux) (opd : Byte) : Statement (.hinib aux opd) := by simp [Statement, encode, decode]
theorem lonib (aux : Aux) (opd : Byte) : Statement (.lonib aux opd) := by simp [Statement, encode, decode]
theorem dup2 (aux : Aux) (opd : Byte) : Statement (.dup2 aux opd) := by simp [Statement, encode, decode]

theorem reservedAB (sel : BitVec 1) (aux : Aux) (opd : Byte) : Statement (.reservedAB sel aux opd) := by
  have h : sel = 0 ∨ sel = 1 := by revert sel; decide
  rcases h with rfl | rfl <;> simp [Statement, encode, decode]

theorem reservedCF (sel : BitVec 2) (aux : Aux) (opd : Byte) : Statement (.reservedCF sel aux opd) := by
  have h : sel = 0 ∨ sel = 1 ∨ sel = 2 ∨ sel = 3 := by revert sel; decide
  rcases h with rfl | rfl | rfl | rfl <;> simp [Statement, encode, decode]

end Sys2Proof.Laws.RoundTrip
end

