-- ==== Sys2Proof/Laws/Run.lean ====
section
/-! SUPPORT. One step of a run, of the port invariant's definitions and of a system. -/

namespace Sys2Proof.Machine

theorem core_run_zero (s : State) : core.run 0 s = .next s := rfl

/-- A run goes on from the state its first step gives. -/
theorem core_run_next (k : Nat) (s t : State) (h : step s = .next t) : core.run (k + 1) s = core.run k t := by
  have h' : core.step s = .next t := h
  simp only [Host.Core.run, h']

@[simp] theorem State.presenting_pending (s : State) (w : Cmd) (rest : List HostAct) :
    (s.presenting w rest).pending = .present w :: rest := rfl

theorem systemStep_absent (k : Nat) (sys : System) (h : sys[k]? = none) : systemStep k sys = .next sys := by
  simp only [systemStep, h]

theorem systemStep_present (k : Nat) (sys : System) (s t : State) (h : sys[k]? = some s) (ht : step s = .next t) :
    systemStep k sys = .next (sys.set k t) := by
  simp only [systemStep, h, ht]

/-- The shapes of a system's step to a next system. -/
theorem systemStep_next (k : Nat) (sys a : System) (h : systemStep k sys = .next a) :
    (sys[k]? = none ∧ a = sys) ∨ ∃ s t, sys[k]? = some s ∧ step s = .next t ∧ a = sys.set k t := by
  unfold systemStep at h
  cases hk : sys[k]? with
  | none => rw [hk] at h; injection h with h; exact .inl ⟨rfl, h.symm⟩
  | some s =>
    rw [hk] at h
    simp only at h
    cases hs : step s with
    | next t => rw [hs] at h; injection h with h; exact .inr ⟨s, t, rfl, hs, h.symm⟩
    | fault f => rw [hs] at h; cases h
    | refused r => rw [hs] at h; cases h

end Sys2Proof.Machine
end

