-- ==== Sys2Proof/Tests/Slice0.lean ====
section
/-! SUPPORT. Tests. Words and results are those of 30_encoding.md (patterns of the command rules, R66) and
95_test_vectors.md (section numbers in the comments), none of them taken from the model. -/

namespace Sys2Proof.Machine.Tests

/-- The outputs a command drives from reset. -/
def outputsOf (i : Instr) : Option Outputs :=
  match exec i State.reset with
  | .next t => t.out
  | _ => none

/-- The outputs one step drives when the host presents a word right after reset. -/
def firstOutputs (w : Nat) : Option Outputs :=
  match step (State.reset.withFetchWord 16 w) with
  | .next t => t.out
  | _ => none

/-! Decoding, one word per command, written out from its pattern: opcode, aux, operand. -/

theorem test_decode_enc : decode 0b0000000000000100#16 = .enc 0 0x04 := by decide
theorem test_decode_dec : decode 0b0001000010010000#16 = .dec 0 0x90 := by decide
theorem test_decode_syn : decode 0b0010000011011010#16 = .syn 0 0xDA := by decide
theorem test_decode_dscat : decode 0b0011000000001111#16 = .dscat 0 0x0F := by decide
theorem test_decode_dgath : decode 0b0100000011111110#16 = .dgath 0 0xFE := by decide
theorem test_decode_pext : decode 0b0101000011010010#16 = .pext 0 0xD2 := by decide
theorem test_decode_extb : decode 0b0110011001000001#16 = .extb 6 0x41 := by decide
theorem test_decode_hinib : decode 0b0111000001000001#16 = .hinib 0 0x41 := by decide
theorem test_decode_lonib : decode 0b1000000001000001#16 = .lonib 0 0x41 := by decide
theorem test_decode_dup2 : decode 0b1001000101000001#16 = .dup2 1 0x41 := by decide
theorem test_decode_reservedAB : decode 0b1011000100100011#16 = .reservedAB 1 0x1 0x23 := by decide
theorem test_decode_reservedCF : decode 0b1110100000000000#16 = .reservedCF 2 0x8 0x00 := by decide
theorem test_table_word : decodeTableWord 16 0x9000 = some (.dup2 0 0x00) := by decide
theorem test_table_word_too_wide : decodeTableWord 17 0x10000 = none := by decide

/-! WellFormed: a term that each check refuses, by the check's name (R63, R64). -/

theorem test_illformed_enc_field : (Instr.enc 1 0x00).defect = some .eField := by decide
theorem test_illformed_enc_operand : (Instr.enc 0 0x10).defect = some .eOperand := by decide
theorem test_illformed_dec_field : (Instr.dec 1 0x01).defect = some .eField := by decide
theorem test_illformed_syn_field : (Instr.syn 15 0x00).defect = some .eField := by decide
theorem test_illformed_dscat_field : (Instr.dscat 15 0x80).defect = some .eField := by decide
theorem test_illformed_dscat_operand : (Instr.dscat 0 0x80).defect = some .eOperand := by decide
theorem test_illformed_dgath_field : (Instr.dgath 2 0x98).defect = some .eField := by decide
theorem test_illformed_pext_field : (Instr.pext 1 0x80).defect = some .eField := by decide
theorem test_illformed_extb_index : (Instr.extb 8 0x41).defect = some .eIndex := by decide
theorem test_illformed_hinib_field : (Instr.hinib 1 0x41).defect = some .eField := by decide
theorem test_illformed_lonib_field : (Instr.lonib 15 0x41).defect = some .eField := by decide
theorem test_illformed_dup2_index : (Instr.dup2 8 0x41).defect = some .eIndex := by decide
theorem test_illformed_reservedAB : (Instr.reservedAB 0 0 0x00).wellFormed = false := by decide
theorem test_illformed_reservedCF : (Instr.reservedCF 3 15 0xFF).wellFormed = false := by decide
theorem test_wellformed_top_operands :
    (Instr.enc 0 0x0F).wellFormed = true ∧ (Instr.extb 7 0xFF).wellFormed = true := by decide

/-! One step after reset (95_test_vectors.md sections 2.1 to 2.10): a result and a refusal of each command. -/

theorem test_extb_top_bit : firstOutputs 0x67FF = some { res := 0x80, err := false } := by decide
theorem test_extb_index_15 : firstOutputs 0x6F41 = some { res := 0x02, err := true } := by decide
theorem test_hinib_no_sign : firstOutputs 0x70A5 = some { res := 0x0A, err := false } := by decide
theorem test_hinib_field : firstOutputs 0x7141 = some { res := 0x03, err := true } := by decide
theorem test_lonib : firstOutputs 0x80A5 = some { res := 0x05, err := false } := by decide
theorem test_lonib_field : firstOutputs 0x8F41 = some { res := 0x03, err := true } := by decide
theorem test_dup2_bit_6 : firstOutputs 0x9641 = some { res := 0x03, err := false } := by decide
theorem test_dup2_index_8 : firstOutputs 0x9841 = some { res := 0x02, err := true } := by decide
theorem test_dscat_nine : firstOutputs 0x3009 = some { res := 0x22, err := false } := by decide
theorem test_dscat_field_before_operand : firstOutputs 0x3F80 = some { res := 0x03, err := true } := by decide
theorem test_dgath_no_correction : firstOutputs 0x4090 = some { res := 0x00, err := false } := by decide
theorem test_dgath_all : firstOutputs 0x40FF = some { res := 0x0F, err := false } := by decide
theorem test_pext_p2_only : firstOutputs 0x5040 = some { res := 0x02, err := false } := by decide
theorem test_pext_p4_only : firstOutputs 0x5010 = some { res := 0x04, err := false } := by decide
theorem test_enc_thirteen : firstOutputs 0x000D = some { res := 0xAA, err := false } := by decide
theorem test_enc_operand : firstOutputs 0x00F0 = some { res := 0x04, err := true } := by decide
theorem test_syn_bit_1 : firstOutputs 0x20D0 = some { res := 0x07, err := false } := by decide
theorem test_syn_double_flip : firstOutputs 0x20C0 = some { res := 0x03, err := false } := by decide
theorem test_dec_data_flip : firstOutputs 0x1094 = some { res := 0x0A, err := false } := by decide
theorem test_dec_double_flip : firstOutputs 0x1014 = some { res := 0x02, err := false } := by decide
theorem test_reservedAB_wins : firstOutputs 0xA1F0 = some { res := 0x01, err := true } := by decide
theorem test_reservedCF : firstOutputs 0xFFFF = some { res := 0x01, err := true } := by decide

/-! The assembler (R65): binary and decimal literals, a refused operand, a lower-case mnemonic. -/

theorem test_asm_binary : assembleText "PEXT 0b11010010".toList = some 0x50D2 := by decide
theorem test_asm_decimal : assembleText "ENC 15".toList = some 0x000F := by decide
theorem test_asm_out_of_range : assembleText "ENC 16".toList = none ∧ assembleText ".word 0x10000".toList = none := by
  decide
theorem test_asm_lower_case_mnemonic : assembleText "enc 1".toList = none := by decide

/-! The host at the ports (R29, R203, R206). -/

theorem test_idle_at_reset : step State.reset = .next State.reset := rfl

theorem test_sample_before_first_command :
    step { State.reset with pending := [.sample true 5] } = .fault .outputsUnspecified := rfl

theorem test_sample_unstable :
    step { State.reset with out := some { res := 0x98, err := false }, pending := [.sample false 5] } =
      .fault .sampledWhileChanging := rfl

/-! Witnesses: for each statement with hypotheses, values that meet them all, at the edges of each clause. -/

theorem witness_TableWordsAreReadOrRejectedByName :
    65535 % 2 ^ 16 < 2 ^ 16 ∧ 65535 % 2 ^ 17 < 2 ^ 16 ∧ 2 ^ 16 ≤ 65536 % 2 ^ 17 := by decide

theorem witness_CommandWordSplitsIntoThreeFields : 3 < 4 ∧ 7 < 8 ∧ 0 < 4 := by decide

theorem witness_OpcodeSelectsTheOperation : 0xA#4 ≤ 0xA#4 ∧ 0xA#4 ≤ 0xF#4 := by decide

theorem witness_Assembler :
    16 ≤ 16 ∧ 256 ≤ 256 ∧ 65536 ≤ 65536 ∧ (256 ≤ 256 ∨ 8 ≤ 0) ∧ (256 ≤ 0 ∨ 8 ≤ 8) ∧
    assemble (.enc 15) = some 0x000F ∧ assemble (.word 0xA000) = some 0xA000 := by decide

/-- A number with digits above 9, written in each of the four ways. -/
theorem witness_AssemblyTextIsReadBack :
    "0xFE".toList ∈ literalsOf 254 ∧ "0xfe".toList ∈ literalsOf 254 ∧ "0b11111110".toList ∈ literalsOf 254 ∧
    "254".toList ∈ literalsOf 254 ∧ "0".toList ∈ literalsOf 0 := by decide

/-- For the E_INDEX clauses of ExtbIsolatesTheIndexedBit and DupTwoDoublesTheIndexedBit (index 8 and 15). -/
theorem witness_index_out_of_range :
    (0x8#4).getLsbD 3 = true ∧ (0xF#4).getLsbD 3 = true ∧
    outputsOf (.extb 8 0x41) = some { res := 0x02, err := true } ∧
    outputsOf (.dup2 15 0x00) = some { res := 0x02, err := true } := by decide

/-- For the E_FIELD clauses of the statements about HINIB, LONIB, DGATH, PEXT, SYN, DEC, ENC and DSCAT. -/
theorem witness_field_not_zero :
    0x1#4 ≠ 0#4 ∧ 0xF#4 ≠ 0#4 ∧ outputsOf (.hinib 1 0x41) = some { res := 0x03, err := true } ∧
    outputsOf (.lonib 15 0x41) = some { res := 0x03, err := true } ∧
    outputsOf (.dgath 2 0x98) = some { res := 0x03, err := true } ∧
    outputsOf (.pext 1 0x80) = some { res := 0x03, err := true } ∧
    outputsOf (.syn 1 0x01) = some { res := 0x03, err := true } ∧
    outputsOf (.dec 1 0x01) = some { res := 0x03, err := true } ∧
    outputsOf (.enc 8 0x01) = some { res := 0x03, err := true } ∧
    outputsOf (.dscat 1 0x05) = some { res := 0x03, err := true } := by decide

/-- For the E_OPERAND clauses of EncGivesTheCodeword and DscatPlacesTheDataBits. -/
theorem witness_operand_not_a_nibble :
    (0x10#8).extractLsb' 4 4 ≠ 0#4 ∧ (0xF0#8).extractLsb' 4 4 ≠ 0#4 ∧
    outputsOf (.enc 0 0x10) = some { res := 0x04, err := true } ∧
    outputsOf (.dscat 0 0xFF) = some { res := 0x04, err := true } := by decide

/-- For the clauses over the parity positions (PEXT, ENC, SYN and CoveringSetsAreForced). -/
theorem witness_PextReadsTheStoredParityBits :
    7 ∈ parityPositions ∧ 6 ∈ parityPositions ∧ 4 ∈ parityPositions := by decide

/-- The table itself meets the flip condition: 5 is Hamming position 3 (1 + 2), 1 is 7 (1 + 2 + 4). -/
theorem witness_CoveringSetsAreForced :
    ∀ i < 8, 1 ≤ i →
      (parityPositions.map fun p => if decide (i ∈ covering p) then weight p else 0).sum = hammingPosition i := by
  decide

theorem witness_EncGivesTheCodeword : (0#4 : Nibble) ≠ 15#4 := by decide

/-- For the clauses over a flipped bit of SynGivesTheSyndrome, SyndromeValuesAndLinearity, DecInvertsEncUnderOneFlip and
ByteSurvivesOneFlipPerCodeword: the ends of 1..7 and of 0..7. -/
theorem witness_flip_positions : 1 ≤ 1 ∧ 1 ≤ 7 ∧ 7 ≤ 7 ∧ 0 < 8 ∧ 7 < 8 := by decide

theorem witness_DecCorrectsTheNamedBit :
    Rule.syndrome 0x00 = 0 ∧ Rule.syndrome 0x80 = 1 ∧ Rule.syndrome 0x40 = 2 ∧ Rule.syndrome 0x10 = 4 ∧
    Rule.syndrome 0x20 = 3 ∧ Rule.syndrome 0x08 = 5 ∧ Rule.syndrome 0x04 = 6 ∧ Rule.syndrome 0x02 = 7 := by decide

theorem witness_DecGivesTheNearestCodeword : 2 ≤ distance 0xC0 (Rule.encode 0) := by decide

theorem witness_IllegalCommandsAreExactlyThese :
    0xA#4 ≤ opField 0xA000 ∧
    (opField 0x8F41 ∈ [0x0#4, 0x1#4, 0x2#4, 0x3#4, 0x4#4, 0x5#4, 0x7#4, 0x8#4] ∧ auxField 0x8F41 ≠ 0) ∧
    (opField 0x9841 ∈ [0x6#4, 0x9#4] ∧ (auxField 0x9841).getLsbD 3 = true) ∧
    (opField 0x3080 ∈ [0x0#4, 0x3#4] ∧ auxField 0x3080 = 0 ∧ (opdField 0x3080).extractLsb' 4 4 ≠ 0#4) ∧
    (decode 0x6710).wellFormed = true := by decide

/-- The last clause of the same statement: `EXTB 0x10, 7` meets none of the four conditions. -/
theorem witness_IllegalCommandsAreExactlyThese_legal :
    ¬(0xA#4 ≤ opField 0x6710) ∧
    ¬(opField 0x6710 ∈ [0x0#4, 0x1#4, 0x2#4, 0x3#4, 0x4#4, 0x5#4, 0x7#4, 0x8#4] ∧ auxField 0x6710 ≠ 0) ∧
    ¬(opField 0x6710 ∈ [0x6#4, 0x9#4] ∧ (auxField 0x6710).getLsbD 3 = true) ∧
    ¬(opField 0x6710 ∈ [0x0#4, 0x3#4] ∧ (opdField 0x6710).extractLsb' 4 4 ≠ 0#4) := by decide

/-- The last clause of R172's statement: a command that is refused with a code. -/
theorem witness_CauseCodesAreDrivenForTheirCauses : RefusedWith (decode 0x0110) State.reset 0x03 := rfl

theorem witness_RefusedExactlyWhenIllFormed :
    (Instr.enc 1 0x10).defect = some .eField ∧ (Instr.dec 0 0xFF).wellFormed = true := by decide

theorem witness_RefusedCommandLeavesNothingBehind : (decode 0x1100).defect = some .eField := by decide

theorem witness_StepRunsTheDecodedCommand :
    (State.reset.withFetchWord 16 0x0004).pending = .present 0x0004 :: [] := by decide

theorem witness_SampleBeforeTheFirstCommandFaults :
    State.reset.out = none ∧
    (State.reset.drive { res := 0x98, err := false }).out = some { res := 0x98, err := false } := by decide

/-- A sample at exactly T_SETTLE, whatever T_SETTLE is, is settled. -/
theorem witness_OnlySettledSamplesHaveAValue :
    (State.reset.drive { res := 0x98, err := false }).out = some { res := 0x98, err := false } ∧
    Settled true Config.tSettle :=
  ⟨rfl, rfl, le_refl _⟩

theorem witness_StepKeepsThePortInvariant : State.reset.Inv ∧ step State.reset = .next State.reset :=
  ⟨⟨rfl, fun _ h => absurd h List.not_mem_nil⟩, rfl⟩

theorem witness_RunIsTheListOfEvaluations : Config.tSettle ≤ Config.tSettle := le_refl _

/-- A host that presents `ENC 0x4` and samples it in time keeps its duties (also for StepKeepsAHostDutiful). -/
theorem witness_DutifulHostNeverFaults :
    HostKeepsDuties State.reset.out.isSome [.present 0x0004, .sample true Config.tSettle] :=
  ⟨rfl, ⟨rfl, le_refl _⟩, trivial⟩

/-- Two instances, the first presented `ENC 0x4`, the second `DEC 0x90`. -/
theorem witness_InstancesShareNothing :
    let sys : System := [State.reset.withFetchWord 16 0x0004, State.reset.withFetchWord 16 0x1090]
    (0 ≠ 1) ∧ (∃ a, systemStep 0 sys = .next a) ∧ (∃ b, systemStep 1 sys = .next b) ∧
      sys[0]? = some (State.reset.presenting 0x0004 []) :=
  ⟨by decide, ⟨_, rfl⟩, ⟨_, rfl⟩, rfl⟩

end Sys2Proof.Machine.Tests
end

section
/-! SUPPORT. The one form of every command: its outputs are a function of its check and its result, and they
are those of R173's `eval`. -/

namespace Sys2Proof.Machine

/-- The result of a command that no check refuses; a reserved opcode, which has none, holds 0 here. -/
def commandResult : Instr → Byte
  | .enc _ opd => encodeNibble (opd.extractLsb' 0 4)
  | .dec _ opd => decResult opd
  | .syn _ opd => synResult opd
  | .dscat _ opd => scatterData (opd.extractLsb' 0 4)
  | .dgath _ opd => dgathResult opd
  | .pext _ opd => pextResult opd
  | .extb aux opd => extbResult opd (aux.extractLsb' 0 3)
  | .hinib _ opd => hinibResult opd
  | .lonib _ opd => lonibResult opd
  | .dup2 aux opd => dup2Result opd (aux.extractLsb' 0 3)
  | .reservedAB _ _ _ => 0
  | .reservedCF _ _ _ => 0

/-- The outputs of a command, from the check that refuses it (if one does) and its result (R171, R24). -/
def outputsFor (defect : Option Cause) (v : Byte) : Outputs :=
  match defect with
  | some c => refusalOutputs c
  | none => resultOutputs v

@[simp] theorem outputsFor_some (c : Cause) (v : Byte) : outputsFor (some c) v = refusalOutputs c := rfl

@[simp] theorem outputsFor_none (v : Byte) : outputsFor none v = resultOutputs v := rfl

/-! What `exec` drives. -/

/-- A nibble operand is out of range exactly when `opd[7:4] ≠ 0` (R63). -/
theorem byte_ge_sixteen_iff (opd : Byte) : opd.toNat ≥ 16 ↔ opd.extractLsb' 4 4 ≠ 0#4 := by
  rw [ne_eq, high_nibble_zero_iff, not_lt]

/-- An index is out of range exactly when `aux[3] = 1` (R63). -/
theorem aux_ge_eight_iff (aux : Aux) : aux.toNat ≥ 8 ↔ aux.getLsbD 3 = true := by
  revert aux; decide

theorem onNibble_outputs (f : Nibble → Byte) (aux : Aux) (opd : Byte) (s : State) :
    onNibble f aux opd s =
      .next (s.drive (outputsFor (nibbleFormDefect aux opd) (f (opd.extractLsb' 0 4)))) := by
  obtain ⟨ha, hr⟩ | ⟨ha, ho, hr⟩ | ⟨ha, ho, hr⟩ := nibbleOperand_cases aux opd
  · have hd : nibbleFormDefect aux opd = some .eField := by simp [nibbleFormDefect, ha]
    rw [onNibble, hr, hd]; rfl
  · have hd : nibbleFormDefect aux opd = some .eOperand := by
      simp [nibbleFormDefect, ha, byte_ge_sixteen_iff, ho]
    rw [onNibble, hr, hd]; rfl
  · have hd : nibbleFormDefect aux opd = none := by
      simp [nibbleFormDefect, ha, byte_ge_sixteen_iff, ho]
    rw [onNibble, hr, hd]; rfl

theorem onByte_outputs (f : Byte → Byte) (aux : Aux) (opd : Byte) (s : State) :
    onByte f aux opd s = .next (s.drive (outputsFor (byteFormDefect aux) (f opd))) := by
  by_cases ha : aux = 0#4
  · subst ha; rfl
  · have hd : byteFormDefect aux = some .eField := by simp [byteFormDefect, ha]
    rw [onByte, byteOperand_field aux opd ha, hd]; rfl

theorem onIndexed_outputs (f : Byte → BitIndex → Byte) (aux : Aux) (opd : Byte) (s : State) :
    onIndexed f aux opd s =
      .next (s.drive (outputsFor (indexFormDefect aux) (f opd (aux.extractLsb' 0 3)))) := by
  cases h3 : aux.getLsbD 3 with
  | false =>
    have hd : indexFormDefect aux = none := if_neg (by rw [aux_ge_eight_iff, h3]; decide)
    rw [onIndexed, indexedOperand_ok aux opd h3, hd]; rfl
  | true =>
    have hd : indexFormDefect aux = some .eIndex := if_pos ((aux_ge_eight_iff aux).mpr h3)
    rw [onIndexed, indexedOperand_index aux opd h3, hd]; rfl

/-- A command drives its outputs and does nothing else (R43). -/
theorem exec_outputs (i : Instr) (s : State) :
    exec i s = .next (s.drive (outputsFor i.defect (commandResult i))) := by
  cases i with
  | enc aux opd => exact onNibble_outputs _ aux opd s
  | dec aux opd => exact onByte_outputs _ aux opd s
  | syn aux opd => exact onByte_outputs _ aux opd s
  | dscat aux opd => exact onNibble_outputs _ aux opd s
  | dgath aux opd => exact onByte_outputs _ aux opd s
  | pext aux opd => exact onByte_outputs _ aux opd s
  | extb aux opd => exact onIndexed_outputs _ aux opd s
  | hinib aux opd => exact onByte_outputs _ aux opd s
  | lonib aux opd => exact onByte_outputs _ aux opd s
  | dup2 aux opd => exact onIndexed_outputs _ aux opd s
  | reservedAB sel aux opd => rfl
  | reservedCF sel aux opd => rfl

/-! What `eval` answers. -/

/-- R173: `eval` reads the three fields of the word, and nothing else. -/
theorem eval_fields (w : Cmd) :
    eval w = outputsFor (evalCheck (opField w) (auxField w) (opdField w))
      (evalCase (opField w) (auxField w) (opdField w)) := rfl

theorem eval_commandWord (op : Opcode) (aux : Aux) (opd : Byte) :
    eval (commandWord op aux opd) = outputsFor (evalCheck op aux opd) (evalCase op aux opd) := by
  rw [eval_fields, opField_commandWord, auxField_commandWord, opdField_commandWord]

theorem evalCheck_nibble (op : Opcode) (aux : Aux) (opd : Byte) (hop : op = 0x0 ∨ op = 0x3) :
    evalCheck op aux opd = nibbleFormDefect aux opd := by
  obtain rfl | rfl := hop <;> simp [evalCheck, nibbleFormDefect, byte_ge_sixteen_iff]

theorem evalCheck_byte (op : Opcode) (aux : Aux) (opd : Byte)
    (hop : op ∈ [0x1#4, 0x2#4, 0x4#4, 0x5#4, 0x7#4, 0x8#4]) :
    evalCheck op aux opd = byteFormDefect aux := by
  simp only [List.mem_cons, List.not_mem_nil, or_false] at hop
  obtain rfl | rfl | rfl | rfl | rfl | rfl := hop <;> simp [evalCheck, byteFormDefect]

theorem evalCheck_index (op : Opcode) (aux : Aux) (opd : Byte) (hop : op = 0x6 ∨ op = 0x9) :
    evalCheck op aux opd = indexFormDefect aux := by
  obtain rfl | rfl := hop <;> simp [evalCheck, indexFormDefect, aux_ge_eight_iff]

theorem evalCheck_reserved (op : Opcode) (aux : Aux) (opd : Byte) (hop : op ≥ 0xA) :
    evalCheck op aux opd = some .eOpcode := if_pos hop

/-- R173's `eval` on a command's word gives the outputs of that command. -/
theorem eval_encode (i : Instr) : eval (encode i) = outputsFor i.defect (commandResult i) := by
  cases i with
  | enc aux opd => rw [encode, eval_commandWord, evalCheck_nibble _ _ _ (by decide)]; rfl
  | dec aux opd => rw [encode, eval_commandWord, evalCheck_byte _ _ _ (by decide)]; rfl
  | syn aux opd => rw [encode, eval_commandWord, evalCheck_byte _ _ _ (by decide)]; rfl
  | dscat aux opd => rw [encode, eval_commandWord, evalCheck_nibble _ _ _ (by decide)]; rfl
  | dgath aux opd => rw [encode, eval_commandWord, evalCheck_byte _ _ _ (by decide)]; rfl
  | pext aux opd => rw [encode, eval_commandWord, evalCheck_byte _ _ _ (by decide)]; rfl
  | extb aux opd => rw [encode, eval_commandWord, evalCheck_index _ _ _ (by decide)]; rfl
  | hinib aux opd => rw [encode, eval_commandWord, evalCheck_byte _ _ _ (by decide)]; rfl
  | lonib aux opd => rw [encode, eval_commandWord, evalCheck_byte _ _ _ (by decide)]; rfl
  | dup2 aux opd => rw [encode, eval_commandWord, evalCheck_index _ _ _ (by decide)]; rfl
  | reservedAB sel aux opd =>
    rw [encode, eval_commandWord, evalCheck_reserved _ _ _ (by revert sel; decide)]; rfl
  | reservedCF sel aux opd =>
    rw [encode, eval_commandWord, evalCheck_reserved _ _ _ (by revert sel; decide)]; rfl

/-- Every command drives the outputs of `eval` on its word. -/
theorem exec_eval (i : Instr) (s : State) : exec i s = .next (s.drive (eval (encode i))) := by
  rw [exec_outputs, eval_encode]

/-! Decoded commands: a word is the word of the command it decodes to. -/

/-- The opcodes 0xA and 0xB are `0b101` and the selector of their row (R62). -/
theorem reservedAB_opcode (op : Opcode) (hop : op.toNat = 0xA ∨ op.toNat = 0xB) :
    0b101#3 ++ op.extractLsb' 0 1 = op := by
  revert op; decide

/-- The opcodes 0xC to 0xF are `0b11` and the selector of their row (R62). -/
theorem reservedCF_opcode (op : Opcode) (hop : 0xC ≤ op.toNat) : 0b11#2 ++ op.extractLsb' 0 2 = op := by
  revert op; decide

/-- R61, from words to commands and back. -/
theorem encode_decode (w : Cmd) : encode (decode w) = w := by
  have hword (op : Opcode) (hop : op = opField w) : commandWord op (auxField w) (opdField w) = w := by
    rw [hop, commandWord_fields]
  unfold decode
  split
  iterate 10 next h => exact hword _ (BitVec.eq_of_toNat_eq h.symm)
  · exact hword _ (reservedAB_opcode _ (.inl ‹_›))
  · exact hword _ (reservedAB_opcode _ (.inr ‹_›))
  · exact hword _ (reservedCF_opcode _ (by simp only [imp_false] at *; omega))

/-- Presenting `w` drives `eval w`. -/
theorem exec_decode (w : Cmd) (s : State) : exec (decode w) s = .next (s.drive (eval w)) := by
  rw [exec_eval, encode_decode]

/-! The widths of results (R24). -/

theorem toNat_setWidth_lt {m : Nat} (x : BitVec m) (n : Nat) : (x.setWidth n).toNat < 2 ^ m := by
  rw [BitVec.toNat_setWidth]
  exact (Nat.mod_le _ _).trans_lt x.isLt

/-- The bits of a result above its operation's width are 0. -/
theorem commandResult_lt (i : Instr) : (commandResult i).toNat < 2 ^ resultWidth i := by
  cases i with
  | enc aux opd => exact BitVec.isLt _
  | dec aux opd => exact toNat_setWidth_lt (decodeNibble opd) 8
  | syn aux opd => exact toNat_setWidth_lt (syndrome opd) 8
  | dscat aux opd => exact BitVec.isLt _
  | dgath aux opd => exact toNat_setWidth_lt (gatherData opd) 8
  | pext aux opd => exact toNat_setWidth_lt (storedParity opd) 8
  | extb aux opd => exact BitVec.isLt _
  | hinib aux opd => exact toNat_setWidth_lt (opd.extractLsb' 4 4) 8
  | lonib aux opd => exact toNat_setWidth_lt (opd.extractLsb' 0 4) 8
  | dup2 aux opd => exact toNat_setWidth_lt (BitVec.ofBool _ ++ BitVec.ofBool _) 8
  | reservedAB sel aux opd => exact Nat.one_pos
  | reservedCF sel aux opd => exact Nat.one_pos

end Sys2Proof.Machine
end

section
/-! SUPPORT. What one step can do, in each direction. -/

namespace Sys2Proof.Machine

/-- A step on a presented command puts it on `cmd` and drives its `eval`. -/
theorem step_present_eval (s : State) (w : Cmd) (rest : List HostAct) (h : s.pending = .present w :: rest) :
    step s = .next (((s.advanceHost rest).presentCmd w).drive (eval w)) := by
  rw [step_present s w rest h, exec_decode]

/-- A host sample that keeps its duties reads the outputs. -/
theorem hostSample_settled (stable : Bool) (waited : Nat) (s : State) (o : Outputs)
    (hout : s.out = some o) (hset : Settled stable waited) :
    hostSample stable waited s = .next (s.recordSample o) := by
  obtain ⟨hstable, hwaited⟩ := hset
  simp [hostSample, readOutputs, hout, hstable, not_lt.mpr hwaited]

/-- A host sample that answers a next state has read the outputs. -/
theorem hostSample_next (stable : Bool) (waited : Nat) (s t : State) (h : hostSample stable waited s = .next t) :
    ∃ o, s.out = some o ∧ t = s.recordSample o := by
  obtain ⟨-, hf⟩ | ⟨o, -, -, hf⟩ | ⟨o, -, -, -, hf⟩ | ⟨o, hout, -, -, hn⟩ := hostSample_cases stable waited s
  · rw [hf] at h; cases h
  · rw [hf] at h; cases h
  · rw [hf] at h; cases h
  · rw [hn] at h; injection h with h; exact ⟨o, hout, h.symm⟩

/-- A host sample reads unspecified outputs exactly when there are none (R29). -/
theorem hostSample_unspecified_iff (stable : Bool) (waited : Nat) (s : State) :
    hostSample stable waited s = .fault .outputsUnspecified ↔ s.out = none := by
  obtain ⟨hout, hs⟩ | ⟨o, hout, -, hs⟩ | ⟨o, hout, -, -, hs⟩ | ⟨o, hout, -, -, hs⟩ :=
    hostSample_cases stable waited s <;> simp [hs, hout]

/-- The steps that answer a next state: an idle one, the evaluation of a presented command, a sample that reads
the outputs. -/
theorem step_cases (s t : State) (h : step s = .next t) :
    (s.pending = [] ∧ t = s) ∨
    (∃ w rest, s.pending = .present w :: rest ∧
      t = ((s.advanceHost rest).presentCmd w).drive (eval w)) ∨
    (∃ stable waited rest o, s.pending = .sample stable waited :: rest ∧ s.out = some o ∧
      t = (s.advanceHost rest).recordSample o) := by
  cases hp : s.pending with
  | nil =>
    rw [step_idle s hp] at h; injection h with h
    exact .inl ⟨rfl, h.symm⟩
  | cons act rest =>
    cases act with
    | present w =>
      rw [step_present_eval s w rest hp] at h; injection h with h
      exact .inr (.inl ⟨w, rest, rfl, h.symm⟩)
    | sample stable waited =>
      rw [step_sample s stable waited rest hp] at h
      obtain ⟨o, hout, ht⟩ := hostSample_next stable waited _ t h
      exact .inr (.inr ⟨stable, waited, rest, o, rfl, hout, ht⟩)

end Sys2Proof.Machine
end

section
/-! The statements about the block's state and its host (10_state.md). -/

namespace Sys2Proof.Machine

/-- Where the ports agree, whatever stands on the outputs is the `eval` of a command. -/
theorem State.PortsAgree.out_is_eval {s : State} (h : s.PortsAgree) {o : Outputs} (ho : s.out = some o) :
    ∃ w, o = eval w := by
  rw [h, Option.map_eq_some_iff] at ho
  obtain ⟨w, -, hw⟩ := ho
  exact ⟨w, hw.symm⟩

/-- Settles O37, by the three kinds of step: an evaluation makes the ports agree, and a sample records outputs
that the ports' agreement makes those of a command. -/
theorem stepKeepsThePortInvariant : Obligations.StepKeepsThePortInvariant := by
  intro s t ⟨hports, hsamples⟩ hstep
  obtain ⟨-, rfl⟩ | ⟨w, rest, -, rfl⟩ | ⟨stable, waited, rest, o, -, hout, rfl⟩ := step_cases s t hstep
  · exact ⟨hports, hsamples⟩
  · exact ⟨rfl, hsamples⟩
  · refine ⟨hports, fun o' ho' => ?_⟩
    obtain hold | rfl := List.mem_append.mp ho' |>.imp_right List.mem_singleton.mp
    · exact hsamples o' hold
    · exact hports.out_is_eval hout

/-- Settles O43, by the host's next act: a dutiful sample finds outputs and reads them, and an evaluation puts
outputs there for the samples after it. -/
theorem stepKeepsAHostDutiful : Obligations.StepKeepsAHostDutiful := by
  intro s hduties
  cases hp : s.pending with
  | nil => exact ⟨s, step_idle s hp, hduties⟩
  | cons act rest =>
    rw [hp] at hduties
    cases act with
    | present w => exact ⟨_, step_present_eval s w rest hp, hduties⟩
    | sample stable waited =>
      obtain ⟨hpresented, hset, hrest⟩ := hduties
      obtain ⟨o, hout⟩ := Option.isSome_iff_exists.mp hpresented
      exact ⟨_, (step_sample s stable waited rest hp).trans (hostSample_settled _ _ _ o hout hset), hrest⟩

/-- Settles O27, by whether a check refuses the command. -/
theorem outputsAreAResultOrACauseCode : Obligations.OutputsAreAResultOrACauseCode := by
  intro i
  refine ⟨eval (encode i), exec_eval i, rfl, ?_⟩
  rw [eval_encode]
  cases hd : i.defect with
  | none => exact .inl ⟨rfl, by rw [Instr.wellFormed, hd]; rfl, commandResult_lt i⟩
  | some c => exact .inr ⟨rfl, c, rfl, rfl⟩

/-- Settles O39, by induction on the number of steps: each answers a next state whose host is still dutiful. -/
theorem dutifulHostNeverFaults : Obligations.DutifulHostNeverFaults := by
  intro k
  induction k with
  | zero => exact fun s _ => ⟨s, core_run_zero s⟩
  | succ k ih =>
    intro s hduties
    obtain ⟨t, hstep, ht⟩ := stepKeepsAHostDutiful s hduties
    rw [core_run_next k s t hstep]
    exact ih t ht

/-- Settles O2: each field is an extract of the word, and `commandWord_fields` puts them together. -/
theorem commandWordSplitsIntoThreeFields : Obligations.CommandWordSplitsIntoThreeFields := by
  intro w
  refine ⟨fun k hk => ?op, fun k hk => ?aux, fun k hk => ?opd, commandWord_fields w⟩
  case op => simp [opField, hk]
  case aux => simp [auxField, hk]
  case opd => simp [opdField, hk]

/-- Settles O30. -/
theorem stepRunsTheDecodedCommand : Obligations.StepRunsTheDecodedCommand :=
  step_present

/-- Settles O32: both steps drive `eval w`. -/
theorem outputsDependOnTheCommandAlone : Obligations.OutputsDependOnTheCommandAlone := by
  intro s s' w rest rest'
  refine ⟨_, _, step_present_eval _ w rest rfl, step_present_eval _ w rest' rfl, rfl, ?_⟩
  exact Option.some_ne_none (eval w)

/-- Settles O33: the fault is that of a sample without outputs, and of no other. -/
theorem sampleBeforeTheFirstCommandFaults : Obligations.SampleBeforeTheFirstCommandFaults := by
  intro s stable waited rest
  rw [step_sample _ stable waited rest rfl, ne_eq, hostSample_unspecified_iff]
  exact ⟨id, fun o hout hnone => Option.some_ne_none o (hout.symm.trans hnone)⟩

end Sys2Proof.Machine
end

section
/-! The statement about what a command can touch (20_memory.md). -/

namespace Sys2Proof.Machine

/-- A command executed again in the state it left drives the outputs that stand there already. -/
theorem exec_drive_eval (i : Instr) (s : State) :
    exec i (s.drive (eval (encode i))) = .next (s.drive (eval (encode i))) := by
  rw [exec_eval, State.drive_drive]

/-- Settles O28: the outputs are the `eval` of the command's word, and driving them touches no other field. -/
theorem everyCommandDrivesOnlyTheOutputs : Obligations.EveryCommandDrivesOnlyTheOutputs := by
  intro i
  refine ⟨eval (encode i), fun s => ⟨s.drive (eval (encode i)), exec_eval i s, ?out, ?cmd, ?pending, ?samples, ?again⟩⟩
  case out => exact s.drive_out _
  case cmd => exact s.drive_cmd _
  case pending => exact s.drive_pending _
  case samples => exact s.drive_samples _
  case again => exact exec_drive_eval i s

end Sys2Proof.Machine
end

section
/-! SUPPORT. Commands and words in both directions, and which check refuses the command of a word (R61 to R64). -/

namespace Sys2Proof.Machine

/-- R61, from commands to words and back. -/
theorem decode_encode (i : Instr) : decode (encode i) = i := by
  cases i with
  | enc aux opd => exact Laws.RoundTrip.enc aux opd
  | dec aux opd => exact Laws.RoundTrip.dec aux opd
  | syn aux opd => exact Laws.RoundTrip.syn aux opd
  | dscat aux opd => exact Laws.RoundTrip.dscat aux opd
  | dgath aux opd => exact Laws.RoundTrip.dgath aux opd
  | pext aux opd => exact Laws.RoundTrip.pext aux opd
  | extb aux opd => exact Laws.RoundTrip.extb aux opd
  | hinib aux opd => exact Laws.RoundTrip.hinib aux opd
  | lonib aux opd => exact Laws.RoundTrip.lonib aux opd
  | dup2 aux opd => exact Laws.RoundTrip.dup2 aux opd
  | reservedAB sel aux opd => exact Laws.RoundTrip.reservedAB sel aux opd
  | reservedCF sel aux opd => exact Laws.RoundTrip.reservedCF sel aux opd

theorem wellFormed_iff (i : Instr) : i.wellFormed = true ↔ i.defect = none := Option.isNone_iff_eq_none

theorem refusedWith_of_defect {i : Instr} {c : Cause} (h : i.defect = some c) (s : State) :
    RefusedWith i s (causeCode c) := by
  rw [RefusedWith, exec_outputs, h]; rfl

theorem completes_of_defect_none {i : Instr} (h : i.defect = none) (s : State) :
    Completes i s (commandResult i) := by
  rw [Completes, exec_outputs, h]; rfl

theorem causeCode_injective : Function.Injective causeCode := by
  intro c c'
  cases c <;> cases c' <;> decide

/-- The outputs name the check that refused the command, if one did. -/
theorem defect_eq_of_outputsFor_eq {d d' : Option Cause} {v v' : Byte} (h : outputsFor d v = outputsFor d' v') :
    d = d' := by
  obtain ⟨hres, herr⟩ := Outputs.mk.inj h
  cases d with
  | none => cases d' with
    | none => rfl
    | some c' => cases herr
  | some c => cases d' with
    | none => cases herr
    | some c' => rw [causeCode_injective hres]

/-- The check that refuses a word's command is the one R173 reports for the word's fields. -/
theorem decode_defect (w : Cmd) : (decode w).defect = evalCheck (opField w) (auxField w) (opdField w) := by
  have h : eval (encode (decode w)) = eval w := by rw [encode_decode]
  rw [eval_encode, eval_fields] at h
  exact defect_eq_of_outputsFor_eq h

/-- R62, R63: an opcode takes a nibble, a byte, or a byte and an index, or is reserved. -/
theorem opcode_forms (op : Opcode) :
    (op = 0x0 ∨ op = 0x3) ∨ op ∈ [0x1#4, 0x2#4, 0x4#4, 0x5#4, 0x7#4, 0x8#4] ∨ (op = 0x6 ∨ op = 0x9) ∨
      op ≥ 0xA := by
  revert op; decide

/-- R62: the opcodes that are not reserved and take no index. -/
theorem opcode_without_index (op : Opcode) (hopcode : ¬op ≥ 0xA) (hindex : ¬(op = 0x6 ∨ op = 0x9)) :
    op ∈ [0x0#4, 0x1#4, 0x2#4, 0x3#4, 0x4#4, 0x5#4, 0x7#4, 0x8#4] := by
  revert op; decide

theorem evalCheck_field (op : Opcode) (aux : Aux) (opd : Byte)
    (hop : op ∈ [0x0#4, 0x1#4, 0x2#4, 0x3#4, 0x4#4, 0x5#4, 0x7#4, 0x8#4]) (haux : aux ≠ 0#4) :
    evalCheck op aux opd = some .eField := by
  have hform : (op = 0x0 ∨ op = 0x3) ∨ op ∈ [0x1#4, 0x2#4, 0x4#4, 0x5#4, 0x7#4, 0x8#4] := by
    revert op; decide
  obtain hn | hb := hform
  · rw [evalCheck_nibble op aux opd hn]; exact if_pos haux
  · rw [evalCheck_byte op aux opd hb]; exact if_pos haux

theorem evalCheck_indexRange (op : Opcode) (aux : Aux) (opd : Byte) (hop : op = 0x6 ∨ op = 0x9)
    (haux : aux.getLsbD 3 = true) : evalCheck op aux opd = some .eIndex := by
  rw [evalCheck_index op aux opd hop]
  exact if_pos ((aux_ge_eight_iff aux).mpr haux)

theorem evalCheck_operand (op : Opcode) (opd : Byte) (hop : op = 0x0 ∨ op = 0x3)
    (hopd : opd.extractLsb' 4 4 ≠ 0#4) : evalCheck op 0 opd = some .eOperand := by
  rw [evalCheck_nibble op 0 opd hop]
  exact if_pos ((byte_ge_sixteen_iff opd).mpr hopd)

/-- The commands that no condition of R64 names are legal. -/
theorem evalCheck_none (op : Opcode) (aux : Aux) (opd : Byte) (hopcode : ¬op ≥ 0xA)
    (hfield : ¬(op ∈ [0x0#4, 0x1#4, 0x2#4, 0x3#4, 0x4#4, 0x5#4, 0x7#4, 0x8#4] ∧ aux ≠ 0#4))
    (hindex : ¬((op = 0x6 ∨ op = 0x9) ∧ aux.getLsbD 3 = true))
    (hoperand : ¬((op = 0x0 ∨ op = 0x3) ∧ opd.extractLsb' 4 4 ≠ 0#4)) : evalCheck op aux opd = none := by
  have hrest : ¬(¬(op = 0x6 ∨ op = 0x9) ∧ aux ≠ 0#4) := by
    rintro ⟨hop, haux⟩
    exact hfield ⟨opcode_without_index op hopcode hop, haux⟩
  rw [evalCheck, if_neg hopcode, if_neg hindex, if_neg hrest, if_neg hoperand]

/-! Numbers of any width as words (log entry 10). -/

theorem decodeBits_narrow {nbits w : Nat} (h : w % 2 ^ nbits < 2 ^ 16) :
    decodeBits nbits w = .ok (decode (BitVec.ofNat 16 (w % 2 ^ nbits))) := if_pos h

theorem decodeBits_wide {nbits w : Nat} (h : 2 ^ 16 ≤ w % 2 ^ nbits) :
    decodeBits nbits w = .error .widerThanCommand := if_neg (not_lt.mpr h)

theorem decodeTableWord_narrow {nbits w : Nat} (h : w % 2 ^ nbits < 2 ^ 16) :
    decodeTableWord nbits w = some (decode (BitVec.ofNat 16 (w % 2 ^ nbits))) := by
  simp only [decodeTableWord, decodeBits_narrow h]

theorem decodeTableWord_wide {nbits w : Nat} (h : 2 ^ 16 ≤ w % 2 ^ nbits) : decodeTableWord nbits w = none := by
  simp only [decodeTableWord, decodeBits_wide h]

theorem decodeTableWord_toNat (w : Cmd) : decodeTableWord 16 w.toNat = some (decode w) := by
  have hw : w.toNat % 2 ^ 16 = w.toNat := Nat.mod_eq_of_lt w.isLt
  rw [decodeTableWord_narrow (by rw [hw]; exact w.isLt), hw, BitVec.ofNat_toNat, BitVec.setWidth_eq]

/-! How many commands of each opcode are legal. -/

/-- How many of the 4096 words of an opcode are legal: a nibble's, a byte's, or a byte's and an index's values. -/
def legalCount (op : Opcode) : Nat :=
  if op = 0x0 ∨ op = 0x3 then 16
  else if op = 0x6 ∨ op = 0x9 then 2048
  else if op ≥ 0xA then 0
  else 256

theorem nibbleFormDefect_eq_none_iff (aux : Aux) (opd : Byte) :
    nibbleFormDefect aux opd = none ↔ 256 * aux.toNat + opd.toNat < 16 := by
  by_cases haux : aux = 0#4
  · simp [nibbleFormDefect, haux]
  · have hpos : aux.toNat ≠ 0 := fun h => haux (BitVec.eq_of_toNat_eq h)
    exact iff_of_false (by simp [nibbleFormDefect, haux]) (by omega)

theorem byteFormDefect_eq_none_iff (aux : Aux) (opd : Byte) :
    byteFormDefect aux = none ↔ 256 * aux.toNat + opd.toNat < 256 := by
  by_cases haux : aux = 0#4
  · simpa [byteFormDefect, haux] using opd.isLt
  · have hpos : aux.toNat ≠ 0 := fun h => haux (BitVec.eq_of_toNat_eq h)
    exact iff_of_false (by simp [byteFormDefect, haux]) (by omega)

theorem indexFormDefect_eq_none_iff (aux : Aux) (opd : Byte) :
    indexFormDefect aux = none ↔ 256 * aux.toNat + opd.toNat < 2048 := by
  have hopd := opd.isLt
  simp only [indexFormDefect, ite_eq_right_iff, reduceCtorEq, imp_false]
  omega

/-- The legal words of an opcode are the first ones of its block of 4096. -/
theorem evalCheck_eq_none_iff (op : Opcode) (aux : Aux) (opd : Byte) :
    evalCheck op aux opd = none ↔ 256 * aux.toNat + opd.toNat < legalCount op := by
  obtain hop | hop | hop | hop := opcode_forms op
  · have hc : legalCount op = 16 := by revert op; decide
    rw [evalCheck_nibble op aux opd hop, hc, nibbleFormDefect_eq_none_iff]
  · have hc : legalCount op = 256 := by revert op; decide
    rw [evalCheck_byte op aux opd hop, hc, byteFormDefect_eq_none_iff]
  · have hc : legalCount op = 2048 := by revert op; decide
    rw [evalCheck_index op aux opd hop, hc, indexFormDefect_eq_none_iff]
  · have hc : legalCount op = 0 := by revert op; decide
    simp [evalCheck_reserved op aux opd hop, hc]

/-- The words from `4096 * k` on have opcode `k`. -/
theorem opField_block (k r : Nat) (hr : r < 4096) : opField (BitVec.ofNat 16 (4096 * k + r)) = BitVec.ofNat 4 k := by
  apply BitVec.eq_of_toNat_eq
  simp only [opField, BitVec.extractLsb'_toNat, BitVec.toNat_ofNat, Nat.shiftRight_eq_div_pow]
  omega

/-- The place of a word in its opcode's block is written in its fields `aux` and `opd`. -/
theorem fields_block (k r : Nat) (hr : r < 4096) :
    256 * (auxField (BitVec.ofNat 16 (4096 * k + r))).toNat + (opdField (BitVec.ofNat 16 (4096 * k + r))).toNat =
      r := by
  simp only [auxField, opdField, BitVec.extractLsb'_toNat, BitVec.toNat_ofNat, Nat.shiftRight_eq_div_pow]
  omega

theorem wellFormed_block_iff (k r : Nat) (hr : r < 4096) :
    (decode (BitVec.ofNat 16 (4096 * k + r))).wellFormed = true ↔ r < legalCount (BitVec.ofNat 4 k) := by
  rw [wellFormed_iff, decode_defect, evalCheck_eq_none_iff, fields_block k r hr, opField_block k r hr]

theorem length_filter_range (p : Nat → Bool) (n : Nat) :
    ((List.range n).filter p).length = Nat.count (fun k => p k = true) n := by
  rw [← List.countP_eq_length_filter, Nat.count]
  simp

theorem count_of_iff_lt {p : Nat → Prop} [DecidablePred p] {m n : Nat} (hm : m ≤ n) (h : ∀ r < n, p r ↔ r < m) :
    Nat.count p n = m := by
  obtain ⟨d, rfl⟩ := Nat.exists_eq_add_of_le hm
  rw [Nat.count_add, Nat.count_of_forall fun r hr => (h r (by omega)).mpr hr,
    Nat.count_of_forall_not fun r hr => by rw [h (m + r) (by omega)]; omega, Nat.add_zero]

/-- Counting by blocks of `b`, where the members of block `k` are its first `f k`. -/
theorem count_blocks {p : Nat → Prop} [DecidablePred p] {b : Nat} {f : Nat → Nat} (hf : ∀ k, f k ≤ b)
    (h : ∀ k, ∀ r < b, p (b * k + r) ↔ r < f k) (n : Nat) :
    Nat.count p (b * n) = ∑ k ∈ Finset.range n, f k := by
  induction n with
  | zero => simp
  | succ n ih => rw [Nat.mul_succ, Nat.count_add, ih, count_of_iff_lt (hf n) (h n), Finset.sum_range_succ]

theorem legalCount_le (op : Opcode) : legalCount op ≤ 4096 := by
  revert op; decide

/-- R64: how many words are legal. -/
theorem count_wellFormed :
    Nat.count (fun k => (decode (BitVec.ofNat 16 k)).wellFormed = true) 65536 = 5664 :=
  (count_blocks (fun k => legalCount_le (BitVec.ofNat 4 k)) wellFormed_block_iff 16).trans (by decide)

/-- R64: how many words have a reserved opcode, each of which has a block of its own. -/
theorem count_reserved : Nat.count (fun k => 0xA#4 ≤ opField (BitVec.ofNat 16 k)) 65536 = 24576 := by
  have hblock (k r : Nat) (hr : r < 4096) :
      0xA#4 ≤ opField (BitVec.ofNat 16 (4096 * k + r)) ↔ r < if 0xA#4 ≤ BitVec.ofNat 4 k then 4096 else 0 := by
    rw [opField_block k r hr]
    split_ifs with h <;> simp [h, hr]
  have hle (k : Nat) : (if 0xA#4 ≤ BitVec.ofNat 4 k then 4096 else 0) ≤ 4096 := by split_ifs <;> omega
  rw [show 65536 = 4096 * 16 from rfl, count_blocks hle hblock]
  decide

end Sys2Proof.Machine
end

section
/-! SUPPORT. The assembler's forms on their ranges, and only there (R65). -/

namespace Sys2Proof.Machine

theorem assembleNibble_toNat (op : Opcode) (n : Nibble) :
    assembleNibble op n.toNat = some (op ++ 0x0#4 ++ 0x0#4 ++ n) := by
  rw [assembleNibble, if_pos n.isLt, commandWord, BitVec.ofNat_toNat, BitVec.setWidth_eq, BitVec.append_assoc']
  rfl

theorem assembleByte_toNat (op : Opcode) (c : Byte) : assembleByte op c.toNat = some (op ++ 0x0#4 ++ c) := by
  rw [assembleByte, if_pos c.isLt, commandWord, BitVec.ofNat_toNat, BitVec.setWidth_eq]
  rfl

theorem assembleIndexed_toNat (op : Opcode) (b : Byte) (i : BitIndex) :
    assembleIndexed op b.toNat i.toNat = some (op ++ (0b0#1 ++ i) ++ b) := by
  have hi : i.setWidth 4 = 0b0#1 ++ i := by revert i; decide
  rw [assembleIndexed, if_pos ⟨b.isLt, i.isLt⟩, commandWord, BitVec.ofNat_toNat, BitVec.ofNat_toNat,
    BitVec.setWidth_eq, BitVec.setWidth_eq, hi]

theorem assemble_word_toNat (w : Cmd) : assemble (.word w.toNat) = some w := by
  rw [assemble, if_pos w.isLt, BitVec.ofNat_toNat, BitVec.setWidth_eq]

theorem assembleNibble_eq_none (op : Opcode) {n : Nat} (h : 16 ≤ n) : assembleNibble op n = none :=
  if_neg (by omega)

theorem assembleByte_eq_none (op : Opcode) {c : Nat} (h : 256 ≤ c) : assembleByte op c = none :=
  if_neg (by omega)

theorem assembleIndexed_eq_none (op : Opcode) {b i : Nat} (h : 256 ≤ b ∨ 8 ≤ i) :
    assembleIndexed op b i = none :=
  if_neg (by omega)

/-! An assembled word meets the check of its form, whichever opcode of that form it has (R63). -/

theorem wellFormed_commandWord {op : Opcode} {aux : Aux} {opd : Byte} (h : evalCheck op aux opd = none) :
    (decode (commandWord op aux opd)).wellFormed = true := by
  rw [wellFormed_iff, decode_defect, opField_commandWord, auxField_commandWord, opdField_commandWord, h]

theorem assembleNibble_wellFormed {op : Opcode} (hop : op = 0x0 ∨ op = 0x3) {n : Nat} {w : Cmd}
    (h : assembleNibble op n = some w) : (decode w).wellFormed = true := by
  obtain ⟨-, ⟨⟩⟩ := Option.ite_none_right_eq_some.mp h
  refine wellFormed_commandWord ((evalCheck_nibble op _ _ hop).trans ?_)
  generalize BitVec.ofNat 4 n = x
  revert x; decide

theorem assembleByte_wellFormed {op : Opcode} (hop : op ∈ [0x1#4, 0x2#4, 0x4#4, 0x5#4, 0x7#4, 0x8#4])
    {c : Nat} {w : Cmd} (h : assembleByte op c = some w) : (decode w).wellFormed = true := by
  obtain ⟨-, ⟨⟩⟩ := Option.ite_none_right_eq_some.mp h
  refine wellFormed_commandWord ((evalCheck_byte op _ _ hop).trans ?_)
  rfl

theorem assembleIndexed_wellFormed {op : Opcode} (hop : op = 0x6 ∨ op = 0x9) {b i : Nat} {w : Cmd}
    (h : assembleIndexed op b i = some w) : (decode w).wellFormed = true := by
  obtain ⟨-, ⟨⟩⟩ := Option.ite_none_right_eq_some.mp h
  refine wellFormed_commandWord ((evalCheck_index op _ _ hop).trans ?_)
  generalize BitVec.ofNat 3 i = x
  revert x; decide

end Sys2Proof.Machine
end

section
/-! SUPPORT. Reading the text of an assembly line back (R65). -/

namespace Sys2Proof.Machine

theorem digitValue_digitChar : ∀ d < 16, digitValue (Nat.digitChar d) = some d := by decide

theorem digitValue_toUpper_digitChar : ∀ d < 16, digitValue (Nat.digitChar d).toUpper = some d := by decide

/-- One more digit at the end of a number. -/
theorem digitsFrom_concat {base acc m d : Nat} {text : List Char} {ch : Char}
    (htext : digitsFrom base acc text = some m) (hch : digitValue ch = some d) (hd : d < base) :
    digitsFrom base acc (text ++ [ch]) = some (base * m + d) := by
  induction text generalizing acc with
  | nil =>
    obtain rfl := Option.some.inj htext
    simp [digitsFrom, hch, hd]
  | cons c rest ih =>
    cases hc : digitValue c with
    | none => simp [digitsFrom, hc] at htext
    | some e =>
      by_cases he : e < base
      · simp only [digitsFrom, hc, he, if_true] at htext
        simpa only [List.cons_append, digitsFrom, hc, he, if_true] using ih htext
      · simp [digitsFrom, hc, he] at htext

theorem digits_eq_digitsFrom {base : Nat} {text : List Char} (h : text ≠ []) :
    digits base text = digitsFrom base 0 text := by
  cases text with
  | nil => exact absurd rfl h
  | cons ch rest => rfl

/-- The digits of a number, each written so that its value can be read, are read back as the number. -/
theorem digits_toDigits {base : Nat} (hbase : 1 < base) {write : Char → Char}
    (hwrite : ∀ d < base, digitValue (write (Nat.digitChar d)) = some d) (n : Nat) :
    digits base ((Nat.toDigits base n).map write) = some n := by
  rw [digits_eq_digitsFrom (by simp [Nat.toDigits_ne_nil])]
  induction n using Nat.strongRecOn with
  | _ n ih =>
    by_cases hn : n < base
    · simp [Nat.toDigits_of_lt_base hn, digitsFrom, hwrite n hn, hn]
    · have hmod : n % base < base := Nat.mod_lt n (by omega)
      have hdiv : n / base < n := Nat.div_lt_self (by omega) hbase
      rw [Nat.toDigits_of_base_le hbase (not_lt.mp hn), List.map_append,
        List.map_singleton, digitsFrom_concat (ih _ hdiv) (hwrite _ hmod) hmod, Nat.div_add_mod]

/-- The same for the digits as `Nat.toDigits` has them. -/
theorem digits_toDigits_self {base : Nat} (hbase : 1 < base) (hle : base ≤ 16) (n : Nat) :
    digits base (Nat.toDigits base n) = some n := by
  simpa using digits_toDigits (write := id) hbase (fun d hd => digitValue_digitChar d (by omega)) n

/-- A text of decimal digits begins neither with `0x` nor with `0b`. -/
theorem numericLiteral_of_isDigit {text : List Char} (h : ∀ ch ∈ text, ch.isDigit = true) :
    numericLiteral text = digits 10 text := by
  unfold numericLiteral
  split
  · exact absurd (h 'x' (by simp)) (by decide)
  · exact absurd (h 'b' (by simp)) (by decide)
  · rfl

theorem numericLiteral_of_mem_literalsOf {n : Nat} {text : List Char} (h : text ∈ literalsOf n) :
    numericLiteral text = some n := by
  simp only [literalsOf, List.mem_cons, List.not_mem_nil, or_false] at h
  obtain rfl | rfl | rfl | rfl := h
  · exact digits_toDigits (by decide) digitValue_toUpper_digitChar n
  · exact digits_toDigits_self (base := 16) (by decide) (by decide) n
  · exact digits_toDigits_self (base := 2) (by decide) (by decide) n
  · rw [numericLiteral_of_isDigit fun ch hch => Nat.isDigit_of_mem_toDigits (by decide) (by decide) hch]
    exact digits_toDigits_self (by decide) (by decide) n

/-! No comma stands in a number, so the first one of a line separates its operands. -/

theorem comma_notMem_of_digitsFrom {base acc n : Nat} {text : List Char} (h : digitsFrom base acc text = some n) :
    ',' ∉ text := by
  induction text generalizing acc with
  | nil => exact List.not_mem_nil
  | cons ch rest ih =>
    have hcomma : digitValue ',' = none := by decide
    unfold digitsFrom at h
    split at h
    · next d hd =>
      split at h
      · rintro (_ | ⟨_, hmem⟩)
        · simp [hcomma] at hd
        · exact ih h hmem
      · cases h
    · cases h

theorem comma_notMem_of_digits {base n : Nat} {text : List Char} (h : digits base text = some n) : ',' ∉ text := by
  cases text with
  | nil => exact List.not_mem_nil
  | cons ch rest => exact comma_notMem_of_digitsFrom h

theorem comma_notMem_of_numericLiteral {n : Nat} {text : List Char} (h : numericLiteral text = some n) :
    ',' ∉ text := by
  unfold numericLiteral at h
  split at h
  · simpa using comma_notMem_of_digits h
  · simpa using comma_notMem_of_digits h
  · exact comma_notMem_of_digits h

theorem cutAt_append {stop : Char} {before : List Char} (h : stop ∉ before) (after : List Char) :
    cutAt stop (before ++ stop :: after) = some (before, after) := by
  induction before with
  | nil => simp [cutAt]
  | cons ch rest ih =>
    obtain ⟨hne, hrest⟩ := List.ne_and_not_mem_of_not_mem_cons h
    simp [cutAt, hne.symm, ih hrest]

theorem twoLiterals_append {b i : Nat} {first second : List Char} (hb : numericLiteral first = some b)
    (hi : numericLiteral second = some i) : twoLiterals (first ++ ',' :: ' ' :: second) = some (b, i) := by
  simp only [twoLiterals, cutAt_append (comma_notMem_of_numericLiteral hb), hb, hi]

/-! A whole line. -/

theorem assembleText_append {mnemonic operands : List Char} {line : AsmLine} (hspace : ' ' ∉ mnemonic)
    (hparse : parseOperands mnemonic operands = some line) :
    assembleText (mnemonic ++ ' ' :: operands) = assemble line := by
  simp only [assembleText, parseLine, cutAt_append hspace, hparse, Option.bind_some]

/-- A line of a mnemonic that takes one number. -/
theorem assembleText_one {mnemonic text : List Char} {form : Nat → AsmLine} {n : Nat} (hspace : ' ' ∉ mnemonic)
    (hform : parseOperands mnemonic text = (numericLiteral text).map form) (h : numericLiteral text = some n) :
    assembleText (mnemonic ++ ' ' :: text) = assemble (form n) :=
  assembleText_append hspace (by rw [hform, h]; rfl)

/-- A line of a mnemonic that takes two numbers. -/
theorem assembleText_two {mnemonic first second : List Char} {form : Nat → Nat → AsmLine} {b i : Nat}
    (hspace : ' ' ∉ mnemonic)
    (hform : ∀ text, parseOperands mnemonic text = (twoLiterals text).map fun p => form p.1 p.2)
    (hb : numericLiteral first = some b) (hi : numericLiteral second = some i) :
    assembleText (mnemonic ++ ' ' :: (first ++ ',' :: ' ' :: second)) = assemble (form b i) :=
  assembleText_append hspace (by rw [hform, twoLiterals_append hb hi]; rfl)

end Sys2Proof.Machine
end

section
/-! The statements about commands, words and assembly lines (30_encoding.md). -/

namespace Sys2Proof.Machine

/-- Settles O1: the decoder reads each command back from its word, and every word is the word of its command. -/
theorem everyWordIsOneCommand : Obligations.EveryWordIsOneCommand :=
  ⟨decode_encode, encode_decode⟩

/-- Settles O26, by the one form of every command: its outputs are those of its check or of its result. -/
theorem refusedExactlyWhenIllFormed : Obligations.RefusedExactlyWhenIllFormed := by
  intro i s
  refine ⟨fun c hdefect => refusedWith_of_defect hdefect s, fun hlegal => ?_⟩
  exact ⟨commandResult i, completes_of_defect_none ((wellFormed_iff i).mp hlegal) s⟩

/-- Settles O24: R173's check on the word's fields is the one that refuses it, and the words are counted by
opcode. -/
theorem illegalCommandsAreExactlyThese : Obligations.IllegalCommandsAreExactlyThese := by
  have hrefused (s : State) {w : Cmd} {c : Cause} (h : evalCheck (opField w) (auxField w) (opdField w) = some c) :
      RefusedWith (decode w) s (causeCode c) := refusedWith_of_defect ((decode_defect w).trans h) s
  refine ⟨fun s w => ⟨fun hop => ?opcode, fun hop haux => ?field, fun hop haux => ?index,
    fun hop haux hopd => ?operand, fun hopcode hfield hindex hoperand => ?legal⟩, ?reserved, ?count⟩
  case opcode => exact hrefused s (evalCheck_reserved _ _ _ hop)
  case field => exact hrefused s (evalCheck_field _ _ _ hop haux)
  case index => exact hrefused s (evalCheck_indexRange _ _ _ (by simpa using hop) haux)
  case operand => exact hrefused s (by rw [haux]; exact evalCheck_operand _ _ (by simpa using hop) hopd)
  case legal =>
    have hnone : (decode w).defect = none := (decode_defect w).trans <|
      evalCheck_none _ _ _ hopcode hfield (by simpa using hindex) (by simpa using hoperand)
    exact ⟨_, completes_of_defect_none hnone s⟩
  case reserved =>
    rw [length_filter_range]
    simpa using count_reserved
  case count => rw [length_filter_range, count_wellFormed]

/-- Settles O3: each opcode's word is the word of its command, and the reserved ones are R64's. -/
theorem opcodeSelectsTheOperation : Obligations.OpcodeSelectsTheOperation := by
  intro aux opd s
  refine ⟨decode_encode (.enc aux opd), decode_encode (.dec aux opd), decode_encode (.syn aux opd),
    decode_encode (.dscat aux opd), decode_encode (.dgath aux opd), decode_encode (.pext aux opd),
    decode_encode (.extb aux opd), decode_encode (.hinib aux opd), decode_encode (.lonib aux opd),
    decode_encode (.dup2 aux opd), fun op hop => ?reserved, decode_encode (.enc 0#4 0), rfl⟩
  case reserved =>
    obtain ⟨hrefused, -⟩ := illegalCommandsAreExactlyThese.1 s (commandWord op aux opd)
    exact hrefused (by rwa [opField_commandWord])

/-- Settles O5: R65's forms on their ranges, and each assembled form meets the check of its opcode. -/
theorem assemblerEncodesInRangeAndRefusesTheRest : Obligations.AssemblerEncodesInRangeAndRefusesTheRest := by
  refine ⟨fun n => ?nibble, fun c => ?byte, fun b i => ?indexed, assemble_word_toNat, fun n hn => ?noNibble,
    fun c hc => ?noByte, fun b i hbi => ?noIndexed, fun w hw => if_neg (by omega), fun l w h => ?legal⟩
  case nibble => exact ⟨assembleNibble_toNat 0x0 n, assembleNibble_toNat 0x3 n⟩
  case byte =>
    exact ⟨assembleByte_toNat 0x1 c, assembleByte_toNat 0x2 c, assembleByte_toNat 0x4 c,
      assembleByte_toNat 0x5 c, assembleByte_toNat 0x7 c, assembleByte_toNat 0x8 c⟩
  case indexed => exact ⟨assembleIndexed_toNat 0x6 b i, assembleIndexed_toNat 0x9 b i⟩
  case noNibble => exact ⟨assembleNibble_eq_none 0x0 hn, assembleNibble_eq_none 0x3 hn⟩
  case noByte =>
    exact ⟨assembleByte_eq_none 0x1 hc, assembleByte_eq_none 0x2 hc, assembleByte_eq_none 0x4 hc,
      assembleByte_eq_none 0x5 hc, assembleByte_eq_none 0x7 hc, assembleByte_eq_none 0x8 hc⟩
  case noIndexed => exact ⟨assembleIndexed_eq_none 0x6 hbi, assembleIndexed_eq_none 0x9 hbi⟩
  case legal =>
    cases l with
    | enc n => exact .inl (assembleNibble_wellFormed (.inl rfl) h)
    | dec c => exact .inl (assembleByte_wellFormed (by decide) h)
    | syn c => exact .inl (assembleByte_wellFormed (by decide) h)
    | dscat n => exact .inl (assembleNibble_wellFormed (.inr rfl) h)
    | dgath c => exact .inl (assembleByte_wellFormed (by decide) h)
    | pext c => exact .inl (assembleByte_wellFormed (by decide) h)
    | extb b i => exact .inl (assembleIndexed_wellFormed (.inl rfl) h)
    | hinib b => exact .inl (assembleByte_wellFormed (by decide) h)
    | lonib b => exact .inl (assembleByte_wellFormed (by decide) h)
    | dup2 b i => exact .inl (assembleIndexed_wellFormed (.inr rfl) h)
    | word v => exact .inr ⟨v, rfl⟩

/-- Settles O6: each literal is read back as its number, and the line is cut at its space and its comma. -/
theorem assemblyTextIsReadBack : Obligations.AssemblyTextIsReadBack := by
  refine ⟨fun n text htext => ?one, fun b i first hfirst second hsecond => ?two⟩
  case one =>
    have h := numericLiteral_of_mem_literalsOf htext
    exact ⟨assembleText_one (mnemonic := "ENC".toList) (by decide) rfl h,
      assembleText_one (mnemonic := "DEC".toList) (by decide) rfl h,
      assembleText_one (mnemonic := "SYN".toList) (by decide) rfl h,
      assembleText_one (mnemonic := "DSCAT".toList) (by decide) rfl h,
      assembleText_one (mnemonic := "DGATH".toList) (by decide) rfl h,
      assembleText_one (mnemonic := "PEXT".toList) (by decide) rfl h,
      assembleText_one (mnemonic := "HINIB".toList) (by decide) rfl h,
      assembleText_one (mnemonic := "LONIB".toList) (by decide) rfl h,
      assembleText_one (mnemonic := ".word".toList) (by decide) rfl h⟩
  case two =>
    have hb := numericLiteral_of_mem_literalsOf hfirst
    have hi := numericLiteral_of_mem_literalsOf hsecond
    simp only [List.append_assoc]
    exact ⟨assembleText_two (mnemonic := "EXTB".toList) (by decide) (fun _ => rfl) hb hi,
      assembleText_two (mnemonic := "DUP2".toList) (by decide) (fun _ => rfl) hb hi⟩

/-- Settles O4: the text of each line is read by the assembler, and its word is that of the command named. -/
theorem workedEncodings : Obligations.WorkedEncodings :=
  ⟨by decide, decode_encode (.enc 0 0x04), by decide, decode_encode (.dec 0 0x90),
    by decide, decode_encode (.syn 0 0xDA), by decide, decode_encode (.dscat 0 0x0F),
    by decide, decode_encode (.dgath 0 0xFE), by decide, decode_encode (.pext 0 0xD2),
    by decide, decode_encode (.extb 6 0x41), by decide, decode_encode (.hinib 0 0x41),
    by decide, decode_encode (.lonib 0 0x41), by decide, decode_encode (.dup2 0 0x41),
    by decide, decode_encode (.reservedAB 0 0 0x00),
    refusedWith_of_defect (i := .reservedAB 0 0 0x00) (c := .eOpcode) rfl State.reset⟩

/-- Settles O23, by the check of a reserved opcode and the words of its row. -/
theorem reservedOpcodesGiveEOpcode : Obligations.ReservedOpcodesGiveEOpcode := by
  intro s aux opd
  refine ⟨fun sel => ⟨?_, rfl⟩, fun sel => ⟨?_, rfl⟩⟩
  · exact refusedWith_of_defect (i := .reservedAB sel aux opd) (c := .eOpcode) rfl s
  · exact refusedWith_of_defect (i := .reservedCF sel aux opd) (c := .eOpcode) rfl s

/-- Settles O42, by whether the number is below `2 ^ 16`. -/
theorem tableWordsAreReadOrRejectedByName : Obligations.TableWordsAreReadOrRejectedByName :=
  ⟨decodeTableWord_toNat, fun _ _ h => decodeTableWord_narrow h,
    fun _ _ h => ⟨decodeBits_wide h, decodeTableWord_wide h⟩, fun _ _ _ => rfl⟩

end Sys2Proof.Machine
end

section
/-! SUPPORT. The bit-field results as the rules write them (40_bitfield.md), and the commands that give them. -/

namespace Sys2Proof.Machine

/-- R101: the isolated bit is worth its power of two, or nothing. -/
theorem extbResult_eq_ite (b : Byte) (i : BitIndex) :
    extbResult b i = if b.getLsbD i.toNat = true then BitVec.ofNat 8 (2 ^ i.toNat) else 0#8 := by
  have hpow : BitVec.twoPow 8 i.toNat = BitVec.ofNat 8 (2 ^ i.toNat) :=
    BitVec.eq_of_toNat_eq (BitVec.toNat_twoPow 8 i.toNat)
  rw [extbResult, ← BitVec.twoPow_eq, BitVec.and_twoPow, hpow]

theorem extbResult_getLsbD (b : Byte) (i : BitIndex) (k : Nat) :
    (extbResult b i).getLsbD k = (decide (k = i.toNat) && b.getLsbD k) := by
  have hi : i.toNat < 8 := i.isLt
  rw [extbResult, ← BitVec.twoPow_eq, BitVec.getLsbD_and, BitVec.getLsbD_twoPow, decide_eq_true hi,
    Bool.true_and, Bool.and_comm, decide_eq_decide.mpr eq_comm]

/-- R102: the high nibble is the byte shifted right. -/
theorem hinibResult_eq_ushiftRight (b : Byte) : hinibResult b = b >>> 4 := by
  rw [hinibResult, BitVec.setWidth_eq_append (by decide), BitVec.ushiftRight_eq_extractLsb'_of_lt (by decide)]

/-- R103: the low nibble is the byte under a mask. -/
theorem lonibResult_eq_and (b : Byte) : lonibResult b = b &&& 0x0F := by
  have hlt : b.toNat % 16 < 256 := by omega
  apply BitVec.eq_of_toNat_eq
  simp [lonibResult, Nat.and_two_pow_sub_one_eq_mod b.toNat 4, hlt]

/-- R103: the host's recombination of the two nibbles. -/
theorem hinibResult_shiftLeft_or_lonibResult (b : Byte) : (hinibResult b <<< 4) ||| lonibResult b = b := by
  apply BitVec.eq_of_getLsbD_eq
  intro k hk
  by_cases hlow : k < 4
  · simp [hinibResult, lonibResult, hlow, hk]
  · have hback : 4 + (k - 4) = k := by omega
    have hhigh : k - 4 < 4 := by omega
    simp [hinibResult, lonibResult, hlow, hk, hback, hhigh]

/-- R104: both pattern bits are the selected bit. -/
theorem dup2Result_eq_ite (b : Byte) (i : BitIndex) :
    dup2Result b i = if b.getLsbD i.toNat = true then 0x03 else 0x00 := by
  rw [dup2Result]
  cases b.getLsbD i.toNat <;> rfl

/-! What the four commands answer, on a legal operand and on the one that R63 refuses. -/

theorem extb_completes (b : Byte) (i : BitIndex) (s : State) :
    Completes (.extb (i.setWidth 4) b) s (extbResult b i) := onIndexed_legal extbResult i b s

theorem hinib_completes (b : Byte) (s : State) : Completes (.hinib 0#4 b) s (hinibResult b) :=
  onByte_legal hinibResult b s

theorem lonib_completes (b : Byte) (s : State) : Completes (.lonib 0#4 b) s (lonibResult b) :=
  onByte_legal lonibResult b s

theorem dup2_completes (b : Byte) (i : BitIndex) (s : State) :
    Completes (.dup2 (i.setWidth 4) b) s (dup2Result b i) := onIndexed_legal dup2Result i b s

/-- R101, R104: an index form refuses an index beyond 7. -/
theorem refusedWith_of_index {i : Instr} {aux : Aux} (hform : i.defect = indexFormDefect aux)
    (haux : aux.getLsbD 3 = true) (s : State) : RefusedWith i s 0x02 :=
  refusedWith_of_defect (c := .eIndex) (hform.trans (if_pos ((aux_ge_eight_iff aux).mpr haux))) s

/-- R102, R103: a byte form refuses every `aux` but 0. -/
theorem refusedWith_of_field {i : Instr} {aux : Aux} (hform : i.defect = byteFormDefect aux)
    (haux : aux ≠ 0#4) (s : State) : RefusedWith i s 0x03 :=
  refusedWith_of_defect (c := .eField) (hform.trans (if_pos haux)) s

theorem getLsbD_ones_index (i : BitIndex) : (0xFF : Byte).getLsbD i.toNat = true := by
  revert i; decide

/-- An index form's word as its rule's pattern writes it: `aux[3] = 0`, then the three bits of the index. -/
theorem commandWord_index (op : Opcode) (i : BitIndex) (b : Byte) :
    commandWord op (i.setWidth 4) b = op ++ 0b0#1 ++ i ++ b := by
  have hi : i.setWidth 4 = 0b0#1 ++ i := BitVec.setWidth_eq_append (by decide)
  rw [commandWord, hi, BitVec.append_assoc']
  rfl

end Sys2Proof.Machine
end

section
/-! SUPPORT. The code corrects one flipped bit (R144): the syndrome is linear, it is 0 on every codeword, and on a
single bit it names that bit's position. -/

namespace Sys2Proof.Machine

theorem xorBits_xor (c e : Byte) (positions : List Nat) :
    xorBits (c ^^^ e) positions = (xorBits c positions ^^ xorBits e positions) := by
  have hfold (x y : Bool) : positions.foldl (fun acc j => acc ^^ (c ^^^ e).getLsbD j) (x ^^ y) =
      (positions.foldl (fun acc j => acc ^^ c.getLsbD j) x ^^
        positions.foldl (fun acc j => acc ^^ e.getLsbD j) y) := by
    induction positions generalizing x y with
    | nil => rfl
    | cons j rest ih =>
      have hstep : ((x ^^ y) ^^ (c ^^^ e).getLsbD j) = ((x ^^ c.getLsbD j) ^^ (y ^^ e.getLsbD j)) := by
        rw [BitVec.getLsbD_xor, Bool.xor_assoc, Bool.xor_left_comm y, ← Bool.xor_assoc]
      simpa only [List.foldl_cons, hstep] using ih _ _
  exact hfold false false

/-- R142: the weights are the places of a three-bit number, so the sum is the row of the three checks. -/
theorem syndrome_eq_append (c : Byte) :
    syndrome c = BitVec.ofBool (parityCheck 4 c) ++ BitVec.ofBool (parityCheck 6 c) ++
      BitVec.ofBool (parityCheck 7 c) := by
  simp only [syndrome, parityPositions, List.foldl_cons, List.foldl_nil, weight]
  cases parityCheck 4 c <;> cases parityCheck 6 c <;> cases parityCheck 7 c <;> rfl

theorem syndrome_xor (c e : Byte) : syndrome (c ^^^ e) = syndrome c ^^^ syndrome e := by
  simp only [syndrome_eq_append, parityCheck, xorBits_xor, ← BitVec.ofBool_xor_ofBool]
  rw [← BitVec.xor_append, ← BitVec.xor_append]

theorem syndrome_encodeNibble (n : Nibble) : syndrome (encodeNibble n) = 0#3 := by
  revert n; decide

/-- R10, R142: the syndrome of a single bit is its Hamming position, modulo 8 for the unused bit 0. -/
theorem syndrome_singleBit : ∀ p < 8, syndrome (0x01#8 <<< p) = BitVec.ofNat 3 (8 - p) := by decide

theorem gatherData_encodeNibble (n : Nibble) : gatherData (encodeNibble n) = n := by
  revert n; decide

/-- Bit 0 is no data bit. -/
theorem gatherData_flipBit_zero (c : Byte) : gatherData (flipBit c 0) = gatherData c := by
  have hbit {k : Nat} (hk : k ≠ 0) : (flipBit c 0).getLsbD k = c.getLsbD k := by
    simp [flipBit, BitVec.getLsbD_one, hk]
  simp (disch := decide) only [gatherData, dataLayout, List.foldl_cons, List.foldl_nil, hbit]

/-- R143: a flip in bits 7..1 of a word without an error is undone; one of bit 0 is not seen. -/
theorem correctCodeword_flipBit {c : Byte} (hc : syndrome c = 0#3) {p : Nat} (hp : p < 8) :
    correctCodeword (flipBit c p) = if p = 0 then flipBit c 0 else c := by
  have hs : syndrome (flipBit c p) = BitVec.ofNat 3 (8 - p) := by
    rw [flipBit, syndrome_xor, hc, BitVec.zero_xor, syndrome_singleBit p hp]
  by_cases hzero : p = 0
  · subst hzero
    rw [correctCodeword, hs]
    rfl
  · have hnat : (BitVec.ofNat 3 (8 - p)).toNat = 8 - p := Nat.mod_eq_of_lt (by omega)
    have hne : BitVec.ofNat 3 (8 - p) ≠ 0 := by
      intro h
      have hval : 8 - p = 0 := hnat.symm.trans (congrArg BitVec.toNat h)
      omega
    rw [correctCodeword, hs, if_pos hne, hnat, Nat.sub_sub_self hp.le, if_neg hzero, flipBit,
      BitVec.xor_assoc, BitVec.xor_self, BitVec.xor_zero]

theorem decodeNibble_flipBit {c : Byte} (hc : syndrome c = 0#3) {p : Nat} (hp : p < 8) :
    decodeNibble (flipBit c p) = gatherData c := by
  rw [decodeNibble, correctCodeword_flipBit hc hp]
  split
  · exact gatherData_flipBit_zero c
  · rfl

/-- R144: decoding inverts encoding, whichever one bit is flipped. -/
theorem decodeNibble_flipBit_encodeNibble (n : Nibble) {p : Nat} (hp : p < 8) :
    decodeNibble (flipBit (encodeNibble n) p) = n := by
  rw [decodeNibble_flipBit (syndrome_encodeNibble n) hp, gatherData_encodeNibble]

/-- ENC takes a nibble as the byte of the same value (R63). -/
theorem enc_completes (n : Nibble) (s : State) : Completes (.enc 0#4 (n.setWidth 8)) s (encodeNibble n) := by
  rw [BitVec.setWidth_eq_append (by decide)]
  exact onNibble_legal encodeNibble n s

/-- R144, as the commands' own outputs: DEC gives back the nibble that ENC took. -/
theorem dec_flipBit_encodeNibble_completes (n : Nibble) {p : Nat} (hp : p < 8) (s : State) :
    Completes (.dec 0#4 (flipBit (encodeNibble n) p)) s (n.setWidth 8) := by
  have h : Completes (.dec 0#4 (flipBit (encodeNibble n) p)) s (decResult (flipBit (encodeNibble n) p)) :=
    onByte_legal decResult _ s
  rwa [decResult, decodeNibble_flipBit_encodeNibble n hp] at h

end Sys2Proof.Machine
end

section
/-! The statements about the bit-field utilities (40_bitfield.md). -/

namespace Sys2Proof.Machine

/-- Settles O7: the result is a mask by a power of two, so the other clauses follow from the indexed bit. -/
theorem extbIsolatesTheIndexedBit : Obligations.ExtbIsolatesTheIndexedBit := by
  intro s b i
  refine ⟨?decode, extb_completes b i s, fun k _ => extbResult_getLsbD b i k, ?value, fun aux haux => ?index,
    ?top, ?zero, ?ones, extb_completes 0x41 6 s⟩
  case decode =>
    have h := decode_encode (.extb (i.setWidth 4) b)
    rwa [encode, commandWord_index] at h
  case value =>
    have h := extbResult_eq_ite b i
    split at h
    · exact .inr h
    · exact .inl h
  case index => exact refusedWith_of_index (i := .extb aux b) rfl haux s
  case top =>
    have h := extb_completes b 7 s
    rw [extbResult_eq_ite] at h
    split at h
    · exact .inl h
    · exact .inr h
  case zero => simpa [extbResult_eq_ite] using extb_completes 0x00 i s
  case ones =>
    have h := extb_completes 0xFF i s
    rwa [extbResult_eq_ite, if_pos (getLsbD_ones_index i)] at h

/-- Settles O8, with the result as a shift and as an extended nibble. -/
theorem hinibGivesTheHighNibble : Obligations.HinibGivesTheHighNibble := by
  intro s b
  rw [← hinibResult_eq_ushiftRight]
  exact ⟨decode_encode (.hinib 0#4 b), hinib_completes b s, rfl, toNat_setWidth_lt (b.extractLsb' 4 4) 8,
    fun aux haux => refusedWith_of_field (i := .hinib aux b) rfl haux s,
    hinib_completes 0xFF s, hinib_completes 0x0F s, hinib_completes 0x80 s, hinib_completes 0x41 s⟩

/-- Settles O9, with the result as a mask and as an extended nibble; the two nibbles are the byte's halves. -/
theorem lonibGivesTheLowNibble : Obligations.LonibGivesTheLowNibble := by
  intro s b
  rw [← lonibResult_eq_and]
  exact ⟨decode_encode (.lonib 0#4 b), lonib_completes b s, rfl, toNat_setWidth_lt (b.extractLsb' 0 4) 8,
    fun aux haux => refusedWith_of_field (i := .lonib aux b) rfl haux s,
    lonib_completes 0xF0 s, lonib_completes 0xFF s, lonib_completes 0x41 s,
    _, _, hinib_completes b s, lonib_completes b s, hinibResult_shiftLeft_or_lonibResult b⟩

/-- Settles O10: the result is one of two patterns, by the indexed bit. -/
theorem dupTwoDoublesTheIndexedBit : Obligations.DupTwoDoublesTheIndexedBit := by
  intro s b i
  refine ⟨?decode, ?result, fun aux haux => ?index, ?zero, ?ones,
    dup2_completes 0x41 0 s, decode_encode (.dup2 0#4 0x41), dup2_completes 0x41 1 s, decode_encode (.dup2 1 0x41)⟩
  case decode =>
    have h := decode_encode (.dup2 (i.setWidth 4) b)
    rwa [encode, commandWord_index] at h
  case result =>
    rw [← dup2Result_eq_ite]
    exact dup2_completes b i s
  case index => exact refusedWith_of_index (i := .dup2 aux b) rfl haux s
  case zero => simpa [dup2Result_eq_ite] using dup2_completes 0x00 i s
  case ones =>
    have h := dup2_completes 0xFF i s
    rwa [dup2Result_eq_ite, if_pos (getLsbD_ones_index i)] at h

/-- Settles O22: DEC gives back each nibble (R144), and the two nibbles recombine to the byte (R103). -/
theorem byteSurvivesOneFlipPerCodeword : Obligations.ByteSurvivesOneFlipPerCodeword := by
  intro s b p q hp hq
  exact ⟨_, _, _, _, _, _, hinib_completes b s, lonib_completes b s, enc_completes _ s, enc_completes _ s,
    dec_flipBit_encodeNibble_completes _ hp s, dec_flipBit_encodeNibble_completes _ hq s,
    hinibResult_shiftLeft_or_lonibResult b⟩

end Sys2Proof.Machine
end

section
/-! SUPPORT. The fields of a codeword as the rules write them (41_codeword_fields.md), and the commands that pack and
unpack them. -/

namespace Sys2Proof.Machine

/-! The data bits (R124, R125). -/

theorem scatterData_eq_rule (n : Nibble) : scatterData n = Rule.scatter n := by
  simp only [scatterData, dataLayout, List.foldl_cons, List.foldl_nil, Rule.scatter]
  cases n.getLsbD 3 <;> cases n.getLsbD 2 <;> cases n.getLsbD 1 <;> cases n.getLsbD 0 <;> rfl

theorem gatherData_eq_rule (c : Byte) : gatherData c = Rule.gather c := by
  simp only [gatherData, dataLayout, List.foldl_cons, List.foldl_nil, Rule.gather]
  cases c.getLsbD 5 <;> cases c.getLsbD 3 <;> cases c.getLsbD 2 <;> cases c.getLsbD 1 <;> rfl

theorem gatherData_scatterData (n : Nibble) : gatherData (scatterData n) = n := by
  revert n; decide

theorem scatterData_gatherData (c : Byte) : scatterData (gatherData c) = c &&& dataMask := by
  revert c; decide

/-- R125: only the data bits matter, since they are all that a gathered nibble's scatter keeps. -/
theorem gatherData_and_dataMask (c : Byte) : gatherData (c &&& dataMask) = gatherData c := by
  rw [← scatterData_gatherData, gatherData_scatterData]

/-- R124: no bit outside the data positions is set. -/
theorem scatterData_and_not_dataMask (n : Nibble) : scatterData n &&& ~~~dataMask = 0x00 := by
  have hdata : scatterData n = scatterData n &&& dataMask := by
    rw [← scatterData_gatherData, gatherData_scatterData]
  rw [hdata, BitVec.and_assoc, BitVec.and_not_self]
  exact BitVec.and_zero

/-! Sums of weights (R122): the weights are distinct powers of two, so a sum of them says which ones it holds. -/

/-- The sum of the weights of the parity bits that `holds` picks. -/
def weightSum (holds : Nat → Bool) : Nat := (parityPositions.map fun p => if holds p then weight p else 0).sum

theorem weightSum_congr {f g : Nat → Bool} (h : ∀ p ∈ parityPositions, f p = g p) : weightSum f = weightSum g := by
  rw [weightSum, weightSum, List.map_congr_left fun p hp => by rw [h p hp]]

/-- The bit of a weight in a sum of weights. -/
theorem weightSum_and_weight_ne_zero_iff (f : Nat → Bool) :
    ∀ p ∈ parityPositions, weightSum f &&& weight p ≠ 0 ↔ f p = true := by
  simp only [weightSum, parityPositions, List.map_cons, List.map_nil, List.forall_mem_cons, List.not_mem_nil,
    false_imp_iff, forall_const, and_true]
  cases f 7 <;> cases f 6 <;> cases f 4 <;> decide

theorem weightSum_eq_iff (f g : Nat → Bool) : weightSum f = weightSum g ↔ ∀ p ∈ parityPositions, f p = g p := by
  refine ⟨fun h p hp => ?_, weightSum_congr⟩
  rw [Bool.eq_iff_iff, ← weightSum_and_weight_ne_zero_iff f p hp, ← weightSum_and_weight_ne_zero_iff g p hp, h]

/-- R121: under the table's sets, the checks that a flipped bit fails add up to its Hamming position. -/
theorem weightSum_covering {i : Nat} (hi : 1 ≤ i) (hi' : i ≤ 7) :
    weightSum (fun p => decide (i ∈ covering p)) = hammingPosition i := by
  interval_cases i <;> rfl

/-! The stored parity bits (R126). -/

theorem storedParity_eq_rule (c : Byte) : storedParity c = Rule.parity c := by
  simp only [storedParity, parityPositions, List.foldl_cons, List.foldl_nil, Rule.parity]
  cases c.getLsbD 7 <;> cases c.getLsbD 6 <;> cases c.getLsbD 4 <;> rfl

/-- R126: each stored parity bit stands at the place of its weight. -/
theorem storedParity_toNat (c : Byte) : (storedParity c).toNat = weightSum c.getLsbD := by
  simp only [storedParity, weightSum, parityPositions, List.foldl_cons, List.foldl_nil, List.map_cons, List.map_nil]
  cases c.getLsbD 7 <;> cases c.getLsbD 6 <;> cases c.getLsbD 4 <;> rfl

theorem parityMask_getLsbD : ∀ p ∈ parityPositions, parityMask.getLsbD p = true := by decide

theorem storedParity_and_parityMask (c : Byte) : storedParity (c &&& parityMask) = storedParity c := by
  apply BitVec.eq_of_toNat_eq
  rw [storedParity_toNat, storedParity_toNat]
  refine weightSum_congr fun p hp => ?_
  rw [BitVec.getLsbD_and, parityMask_getLsbD p hp, Bool.and_true]

/-! What the three commands answer. -/

theorem dscat_completes (n : Nibble) (s : State) : Completes (.dscat 0#4 (0#4 ++ n)) s (scatterData n) :=
  onNibble_legal scatterData n s

theorem dgath_completes (c : Byte) (s : State) : Completes (.dgath 0#4 c) s (dgathResult c) :=
  onByte_legal dgathResult c s

theorem pext_completes (c : Byte) (s : State) : Completes (.pext 0#4 c) s (pextResult c) :=
  onByte_legal pextResult c s

/-- A nibble form refuses every `aux` but 0, whatever its operand (R63, R173). -/
theorem refusedWith_of_nibble_field {i : Instr} {aux : Aux} {opd : Byte} (hform : i.defect = nibbleFormDefect aux opd)
    (haux : aux ≠ 0#4) (s : State) : RefusedWith i s 0x03 :=
  refusedWith_of_defect (c := .eField) (hform.trans (if_pos haux)) s

/-- A nibble form whose `aux` is 0 refuses an operand beyond 15 (R63, R173). -/
theorem refusedWith_of_nibble_operand {i : Instr} {opd : Byte} (hform : i.defect = nibbleFormDefect 0#4 opd)
    (hopd : opd.extractLsb' 4 4 ≠ 0#4) (s : State) : RefusedWith i s 0x04 :=
  refusedWith_of_defect (c := .eOperand) (hform.trans (if_pos ((byte_ge_sixteen_iff opd).mpr hopd))) s

/-- A nibble form's word as its rule's pattern writes it: `aux = 0`, `opd[7:4] = 0`, then the nibble. -/
theorem commandWord_nibble (op : Opcode) (n : Nibble) :
    commandWord op 0#4 (0#4 ++ n) = op ++ 0#4 ++ 0#4 ++ n := by
  rw [commandWord, BitVec.append_assoc']
  rfl

end Sys2Proof.Machine
end

section
/-! The statements about codeword fields (41_codeword_fields.md). -/

namespace Sys2Proof.Machine

/-- Settles O11, with the result as R124 writes it. -/
theorem dscatPlacesTheDataBits : Obligations.DscatPlacesTheDataBits := by
  intro s n
  rw [← scatterData_eq_rule]
  refine ⟨?decode, dscat_completes n s, scatterData_and_not_dataMask n, fun aux opd haux => ?field,
    fun opd hopd => ?operand, dscat_completes 0x0 s, dscat_completes 0xF s, rfl, dscat_completes 0x4 s⟩
  case decode =>
    have h := decode_encode (.dscat 0#4 (0#4 ++ n))
    rwa [encode, commandWord_nibble] at h
  case field => exact refusedWith_of_nibble_field (i := .dscat aux opd) rfl haux s
  case operand => exact refusedWith_of_nibble_operand (i := .dscat 0#4 opd) rfl hopd s

/-- Settles O12: gathering and scattering are inverse on the data bits. -/
theorem dgathReadsTheDataBits : Obligations.DgathReadsTheDataBits := by
  intro s c n
  rw [← gatherData_eq_rule]
  refine ⟨decode_encode (.dgath 0#4 c), dgath_completes c s, fun aux haux => ?field, ?mask, ?gatherScatter,
    ?scatterGather, dgath_completes 0xFE s, dgath_completes 0x98 s⟩
  case field => exact refusedWith_of_field (i := .dgath aux c) rfl haux s
  case mask => rw [dgath_completes, dgath_completes, dgathResult, dgathResult, gatherData_and_dataMask]
  case gatherScatter =>
    have h := dgath_completes (scatterData n) s
    rw [dgathResult, gatherData_scatterData] at h
    exact ⟨_, dscat_completes n s, h⟩
  case scatterGather =>
    have h := dscat_completes (gatherData c) s
    have hbyte : (gatherData c).setWidth 8 = 0#4 ++ gatherData c := BitVec.setWidth_eq_append (by decide)
    rw [scatterData_gatherData, ← hbyte] at h
    exact ⟨_, dgath_completes c s, h⟩

/-- Settles O13: the stored parity is the sum of the weights of the parity bits that are set, and its bits are
those of the weights. -/
theorem pextReadsTheStoredParityBits : Obligations.PextReadsTheStoredParityBits := by
  intro s c
  rw [← storedParity_eq_rule]
  refine ⟨decode_encode (.pext 0#4 c), pext_completes c s, ?weights, fun aux haux => ?field, ?mask,
    Nat.le_of_lt_succ (storedParity c).isLt, pext_completes parityMask s, rfl,
    pext_completes 0xD2 s, pext_completes 0x98 s⟩
  case weights =>
    rw [storedParity_toNat]
    exact weightSum_and_weight_ne_zero_iff c.getLsbD
  case field => exact refusedWith_of_field (i := .pext aux c) rfl haux s
  case mask => rw [pext_completes, pext_completes, pextResult, pextResult, storedParity_and_parityMask]

/-- Settles O14: the tables are compared entry by entry; the sets are forced because a sum of weights says which
checks failed, and the table's sets give the sum that is wanted. -/
theorem coveringSetsAreForced : Obligations.CoveringSetsAreForced := by
  refine ⟨?layout, ?masks, ?partition, ?positions, ?dataBits, ?members, fun member => ?forced⟩
  case layout | masks | partition | positions | dataBits | members => decide
  case forced =>
    have hbit (i : Nat) (hi : 1 ≤ i) (hi' : i ≤ 7) : weightSum (member · i) = hammingPosition i ↔
        ∀ p ∈ parityPositions, member p i = decide (i ∈ covering p) := by
      rw [← weightSum_covering hi hi', weightSum_eq_iff]
    constructor
    · exact fun h p hp i hi hi' => (hbit i hi hi').mp (h i hi hi') p hp
    · exact fun h i hi hi' => (hbit i hi hi').mpr fun p hp => h p hp i hi hi'

end Sys2Proof.Machine
end

section
/-! SUPPORT. The codec as the rules write it (42_nibble_codec.md), and its syndrome: the checks hold the stored parity
against the recomputed one. -/

namespace Sys2Proof.Machine

/-! The parity checks (R123, R140). -/

theorem xorBits_eq_foldl_map (c : Byte) (positions : List Nat) :
    xorBits c positions = (positions.map c.getLsbD).foldl xor false := List.foldl_map.symm

theorem xorBits_cons (c : Byte) (j : Nat) (positions : List Nat) :
    xorBits c (j :: positions) = (c.getLsbD j ^^ xorBits c positions) := by
  rw [xorBits_eq_foldl_map, xorBits_eq_foldl_map, List.map_cons, List.foldl_cons, Bool.false_xor,
    ← List.foldl_assoc (op := xor), Bool.xor_false]

theorem xorBits_congr {c e : Byte} {positions : List Nat} (h : ∀ j ∈ positions, c.getLsbD j = e.getLsbD j) :
    xorBits c positions = xorBits e positions := by
  rw [xorBits_eq_foldl_map, xorBits_eq_foldl_map, List.map_congr_left h]

theorem covering_eq_cons : ∀ p ∈ parityPositions, covering p = p :: coveredData p := by decide

theorem dataMask_getLsbD_of_mem_coveredData :
    ∀ p ∈ parityPositions, ∀ j ∈ coveredData p, dataMask.getLsbD j = true := by decide

/-- R142: a check is the stored parity bit against the recomputed one. -/
theorem parityCheck_eq_xor {p : Nat} (hp : p ∈ parityPositions) (c : Byte) :
    parityCheck p c = (c.getLsbD p ^^ xorBits c (coveredData p)) := by
  rw [parityCheck, covering_eq_cons p hp, xorBits_cons]

theorem parityCheck_eq_false_iff {p : Nat} (hp : p ∈ parityPositions) (c : Byte) :
    parityCheck p c = false ↔ c.getLsbD p = xorBits c (coveredData p) := by
  rw [parityCheck_eq_xor hp, ← Bool.bne_eq_xor, bne_eq_false_iff_eq]

/-- R140: recomputing a parity reads the data bits alone. -/
theorem xorBits_scatterData_gatherData {p : Nat} (hp : p ∈ parityPositions) (c : Byte) :
    xorBits (scatterData (gatherData c)) (coveredData p) = xorBits c (coveredData p) := by
  refine xorBits_congr fun j hj => ?_
  rw [scatterData_gatherData, BitVec.getLsbD_and, dataMask_getLsbD_of_mem_coveredData p hp j hj, Bool.and_true]

/-- R141: ENC stores the parities of its data bits. -/
theorem encodeNibble_getLsbD :
    ∀ p ∈ parityPositions, ∀ n : Nibble, (encodeNibble n).getLsbD p = xorBits (scatterData n) (coveredData p) := by
  decide

/-- R145: the recomputed parity is the one that ENC stores for the same data bits. -/
theorem parityCheck_eq_xor_encodeNibble {p : Nat} (hp : p ∈ parityPositions) (c : Byte) :
    parityCheck p c = (c.getLsbD p ^^ (encodeNibble (gatherData c)).getLsbD p) := by
  rw [parityCheck_eq_xor hp, encodeNibble_getLsbD p hp, xorBits_scatterData_gatherData hp]

theorem parityCheck_encodeNibble {p : Nat} (hp : p ∈ parityPositions) (n : Nibble) :
    parityCheck p (encodeNibble n) = false := by
  rw [parityCheck_eq_xor_encodeNibble hp, gatherData_encodeNibble, Bool.xor_self]

/-! The pseudocode of R141 to R143. -/

/-- R140: the parity equations of a nibble. -/
theorem xorBits_scatterData (n : Nibble) :
    xorBits (scatterData n) (coveredData 7) = (n.getLsbD 3 ^^ n.getLsbD 2 ^^ n.getLsbD 0) ∧
    xorBits (scatterData n) (coveredData 6) = (n.getLsbD 3 ^^ n.getLsbD 1 ^^ n.getLsbD 0) ∧
    xorBits (scatterData n) (coveredData 4) = (n.getLsbD 2 ^^ n.getLsbD 1 ^^ n.getLsbD 0) := by
  revert n; decide

theorem encodeNibble_eq_rule (n : Nibble) : encodeNibble n = Rule.encode n := by
  obtain ⟨h7, h6, h4⟩ := xorBits_scatterData n
  simp only [encodeNibble, parityPositions, List.foldl_cons, List.foldl_nil, placeBit, h7, h6, h4]
  rw [scatterData_eq_rule, Rule.encode]

theorem syndrome_eq_rule (c : Byte) : syndrome c = Rule.syndrome c := by
  simp only [syndrome_eq_append, parityCheck, xorBits, covering, List.foldl_cons, List.foldl_nil, Bool.false_xor,
    Rule.syndrome]

theorem correctCodeword_eq_rule (c : Byte) : correctCodeword c = Rule.corrected c := by
  rw [correctCodeword, syndrome_eq_rule, Rule.corrected, flipBit]

theorem encodeNibble_eq_encodeTable (n : Nibble) : encodeNibble n = Rule.encodeTable.getD n.toNat 0 := by
  revert n; decide

theorem encodeNibble_getLsbD_zero (n : Nibble) : (encodeNibble n).getLsbD 0 = false := by
  revert n; decide

/-! The syndrome (R142, R145). -/

theorem syndrome_toNat (c : Byte) : (syndrome c).toNat = (if parityCheck 7 c then 1 else 0) +
    (if parityCheck 6 c then 2 else 0) + (if parityCheck 4 c then 4 else 0) := by
  rw [syndrome_eq_append]
  cases parityCheck 7 c <;> cases parityCheck 6 c <;> cases parityCheck 4 c <;> rfl

/-- R145: the stored parity vector against the one recomputed from the data bits. -/
theorem syndrome_eq_storedParity_xor (c : Byte) :
    syndrome c = storedParity c ^^^ storedParity (encodeNibble (gatherData c)) := by
  rw [syndrome_eq_append, storedParity_eq_rule, storedParity_eq_rule, Rule.parity, Rule.parity, BitVec.xor_append,
    BitVec.xor_append, BitVec.ofBool_xor_ofBool, BitVec.ofBool_xor_ofBool, BitVec.ofBool_xor_ofBool,
    parityCheck_eq_xor_encodeNibble (by decide), parityCheck_eq_xor_encodeNibble (by decide),
    parityCheck_eq_xor_encodeNibble (by decide)]

theorem synResult_encodeNibble (n : Nibble) : synResult (encodeNibble n) = 0x00 := by
  rw [synResult, syndrome_encodeNibble]; rfl

theorem synResult_flipBit_encodeNibble (n : Nibble) {p : Nat} (hp : 1 ≤ p) (hp' : p ≤ 7) :
    synResult (flipBit (encodeNibble n) p) = BitVec.ofNat 8 (8 - p) := by
  rw [synResult, flipBit, syndrome_xor, syndrome_encodeNibble, BitVec.zero_xor, syndrome_singleBit p (by omega),
    BitVec.setWidth_ofNat_of_le_of_lt (by decide) (by omega)]

/-- R147: bit 0 is in no check. -/
theorem syndrome_xor_one (c : Byte) : syndrome (c ^^^ 0x01) = syndrome c := by
  have hone : syndrome 0x01 = 0#3 := by decide
  rw [syndrome_xor, hone, BitVec.xor_zero]

end Sys2Proof.Machine
end

section
/-! SUPPORT. What decoding does to every byte (R143, R146): it commutes with adding a codeword, so it is known from the
bytes that decode to 0. -/

namespace Sys2Proof.Machine

/-! The correction (R143). -/

/-- The flip that a syndrome asks for, as the byte to add. -/
def correction (s : BitVec 3) : Byte := if s ≠ 0 then 0x01#8 <<< (8 - s.toNat) else 0x00#8

theorem correctCodeword_eq_xor (c : Byte) : correctCodeword c = c ^^^ correction (syndrome c) := by
  rw [correctCodeword, correction]
  split
  · rfl
  · exact BitVec.xor_zero.symm

theorem gatherData_xor (c e : Byte) : gatherData (c ^^^ e) = gatherData c ^^^ gatherData e := by
  simp only [gatherData_eq_rule, Rule.gather, BitVec.getLsbD_xor, ← BitVec.ofBool_xor_ofBool]
  rw [← BitVec.xor_append, ← BitVec.xor_append, ← BitVec.xor_append]

theorem gatherData_correctCodeword (c : Byte) :
    gatherData (correctCodeword c) = gatherData c ^^^ gatherData (correction (syndrome c)) := by
  rw [correctCodeword_eq_xor, gatherData_xor]

/-- R143: a syndrome that is a weight names a parity bit, and 0 names none. -/
theorem gatherData_correction_parity {s : BitVec 3} (h : s = 0 ∨ s = 1 ∨ s = 2 ∨ s = 4) :
    gatherData (correction s) = 0#4 := by
  obtain rfl | rfl | rfl | rfl := h <;> rfl

/-- R143: every other syndrome names a data bit. -/
theorem gatherData_correction_data {s : BitVec 3} (h : s = 3 ∨ s = 5 ∨ s = 6 ∨ s = 7) :
    ∃ k < 4, gatherData (correction s) = 0x1#4 <<< k := by
  revert s; decide

/-- Decoding commutes with adding a word that passes every check. -/
theorem decodeNibble_xor (c : Byte) {x : Byte} (hx : syndrome x = 0#3) :
    decodeNibble (c ^^^ x) = decodeNibble c ^^^ gatherData x := by
  simp only [decodeNibble, gatherData_correctCodeword, gatherData_xor, syndrome_xor, hx, BitVec.xor_zero]
  rw [BitVec.xor_assoc, BitVec.xor_assoc, BitVec.xor_comm (gatherData x)]

theorem decodeNibble_xor_encodeNibble (c : Byte) (n : Nibble) :
    decodeNibble (c ^^^ encodeNibble n) = decodeNibble c ^^^ n := by
  rw [decodeNibble_xor c (syndrome_encodeNibble n), gatherData_encodeNibble]

theorem decodeNibble_xor_encodeNibble_eq_zero_iff (c : Byte) (n : Nibble) :
    decodeNibble (c ^^^ encodeNibble n) = 0#4 ↔ decodeNibble c = n := by
  rw [decodeNibble_xor_encodeNibble, BitVec.xor_eq_zero_iff]

/-- R147: the word 0x01 passes every check and holds no data bit. -/
theorem decodeNibble_xor_one (c : Byte) : decodeNibble (c ^^^ 0x01) = decodeNibble c := by
  have hdata : gatherData 0x01 = 0#4 := by decide
  rw [decodeNibble_xor c (by decide), hdata, BitVec.xor_zero]

theorem decodeNibble_encodeNibble (n : Nibble) : decodeNibble (encodeNibble n) = n := by
  rw [decodeNibble, gatherData_correctCodeword, syndrome_encodeNibble, gatherData_encodeNibble]
  exact BitVec.xor_zero

/-! Distances (R141, R146): that of two words is that of their difference from 0. -/

theorem distance_eq_distance_xor (c e : Byte) : distance c e = distance (c ^^^ e) 0x00 := by
  have hbit (j : Nat) : ((c ^^^ e).getLsbD j != (0x00 : Byte).getLsbD j) = (c.getLsbD j != e.getLsbD j) := by
    rw [BitVec.getLsbD_xor, BitVec.ofNat_eq_ofNat, BitVec.getLsbD_zero, Bool.bne_false, Bool.bne_eq_xor]
  simp only [distance, hbit]

/-- The code's least weight: a word that passes every check and holds a data bit has three bits of 7..1 set. -/
theorem three_le_distance_zero : ∀ e : Byte, syndrome e = 0#3 → gatherData e ≠ 0#4 → 3 ≤ distance e 0x00 := by
  decide

theorem three_le_distance_encodeNibble {m n : Nibble} (h : m ≠ n) :
    3 ≤ distance (encodeNibble m) (encodeNibble n) := by
  rw [distance_eq_distance_xor]
  apply three_le_distance_zero
  · rw [syndrome_xor, syndrome_encodeNibble, syndrome_encodeNibble, BitVec.xor_self]
  · rwa [gatherData_xor, gatherData_encodeNibble, gatherData_encodeNibble, ne_eq, BitVec.xor_eq_zero_iff]

theorem distance_zero_le_one_iff : ∀ e : Byte, distance e 0x00 ≤ 1 ↔ decodeNibble e = 0#4 := by decide

/-- R146: a byte decodes to the nibble whose codeword is within one flip, and to no other. -/
theorem distance_encodeNibble_le_one_iff (c : Byte) (n : Nibble) :
    distance c (encodeNibble n) ≤ 1 ↔ decodeNibble c = n := by
  rw [distance_eq_distance_xor, distance_zero_le_one_iff, decodeNibble_xor_encodeNibble_eq_zero_iff]

/-- The bytes with at most one of bits 7..1 set, bit 0 being free: those that decode to 0. -/
def bytesNearZero : List Byte := (List.range 8).flatMap fun p => [0x01#8 <<< p, (0x01#8 <<< p) ^^^ 0x01#8]

theorem mem_bytesNearZero_iff : ∀ e : Byte, e ∈ bytesNearZero ↔ decodeNibble e = 0#4 := by decide

/-- The bytes within one flip of a nibble's codeword, bit 0 being free: those that decode to the nibble. -/
def bytesNear (n : Nibble) : List Byte := bytesNearZero.map fun e => e ^^^ encodeNibble n

theorem bytesNear_nodup (n : Nibble) : (bytesNear n).Nodup :=
  List.Nodup.map (fun _ _ h => BitVec.xor_left_inj _ |>.mp h) (by decide)

theorem bytesNear_length (n : Nibble) : (bytesNear n).length = 16 := List.length_map _

theorem mem_bytesNear_iff (n : Nibble) (c : Byte) : c ∈ bytesNear n ↔ decodeNibble c = n := by
  rw [← decodeNibble_xor_encodeNibble_eq_zero_iff, ← mem_bytesNearZero_iff, bytesNear, List.mem_map]
  constructor
  · rintro ⟨e, he, rfl⟩
    rwa [BitVec.xor_assoc, BitVec.xor_self, BitVec.xor_zero]
  · intro h
    exact ⟨_, h, by rw [BitVec.xor_assoc, BitVec.xor_self, BitVec.xor_zero]⟩

end Sys2Proof.Machine
end

section
/-! SUPPORT. What ENC, SYN and DEC answer. -/

namespace Sys2Proof.Machine

/-- A command completes with one result. -/
theorem Completes.result_unique {i : Instr} {s : State} {v u : Byte} (hv : Completes i s v) (hu : Completes i s u) :
    v = u := by
  have hnext := Host.Outcome.next.inj (hv.symm.trans hu)
  exact congrArg Outputs.res (Option.some.inj (congrArg State.out hnext))

/-- `enc_completes`, with the operand as R141's pattern writes it. -/
theorem enc_append_completes (n : Nibble) (s : State) : Completes (.enc 0#4 (0#4 ++ n)) s (encodeNibble n) :=
  onNibble_legal encodeNibble n s

theorem syn_completes (c : Byte) (s : State) : Completes (.syn 0#4 c) s (synResult c) := onByte_legal synResult c s

theorem dec_completes (c : Byte) (s : State) : Completes (.dec 0#4 c) s (decResult c) := onByte_legal decResult c s

theorem syn_encodeNibble_completes (n : Nibble) (s : State) : Completes (.syn 0#4 (encodeNibble n)) s 0x00 := by
  have h := syn_completes (encodeNibble n) s
  rwa [synResult_encodeNibble] at h

theorem syn_flipBit_encodeNibble_completes (n : Nibble) {p : Nat} (hp : 1 ≤ p) (hp' : p ≤ 7) (s : State) :
    Completes (.syn 0#4 (flipBit (encodeNibble n) p)) s (BitVec.ofNat 8 (8 - p)) := by
  have h := syn_completes (flipBit (encodeNibble n) p) s
  rwa [synResult_flipBit_encodeNibble n hp hp'] at h

theorem dec_completes_iff (c : Byte) (n : Nibble) (s : State) :
    Completes (.dec 0#4 c) s (n.setWidth 8) ↔ decodeNibble c = n := by
  constructor
  · intro h
    have hres : (decodeNibble c).setWidth 8 = n.setWidth 8 := (dec_completes c s).result_unique h
    simpa only [BitVec.setWidth_setWidth_of_le _ (show 4 ≤ 8 by decide), BitVec.setWidth_eq] using
      congrArg (BitVec.setWidth 4) hres
  · rintro rfl
    exact dec_completes c s

theorem syn_xor_one_completes (c : Byte) (s : State) : Completes (.syn 0#4 (c ^^^ 0x01)) s (synResult c) := by
  have h := syn_completes (c ^^^ 0x01) s
  rwa [synResult, syndrome_xor_one] at h

theorem dec_xor_one_completes (c : Byte) (s : State) : Completes (.dec 0#4 (c ^^^ 0x01)) s (decResult c) := by
  have h := dec_completes (c ^^^ 0x01) s
  rwa [decResult, decodeNibble_xor_one] at h

end Sys2Proof.Machine
end

section
/-! The statements about the nibble codec (42_nibble_codec.md). -/

namespace Sys2Proof.Machine

/-- Settles O15: two codewords differ by a word of the code's least weight, and the other clauses are about one
codeword. -/
theorem encGivesTheCodeword : Obligations.EncGivesTheCodeword := by
  intro s n
  simp only [← encodeNibble_eq_rule, ← scatterData_eq_rule]
  refine ⟨?decode, enc_append_completes n s, encodeNibble_eq_encodeTable n, encodeNibble_getLsbD_zero n,
    fun p hp => encodeNibble_getLsbD p hp n, fun p hp => parityCheck_encodeNibble hp n,
    syn_encodeNibble_completes n s, fun m hm => three_le_distance_encodeNibble hm, fun aux opd haux => ?field,
    fun opd hopd => ?operand, enc_append_completes 0x0 s, enc_append_completes 0xF s, enc_append_completes 0x4 s⟩
  case decode =>
    have h := decode_encode (.enc 0#4 (0#4 ++ n))
    rwa [encode, commandWord_nibble] at h
  case field => exact refusedWith_of_nibble_field (i := .enc aux opd) rfl haux s
  case operand => exact refusedWith_of_nibble_operand (i := .enc 0#4 opd) rfl hopd s

/-- Settles O16: each check holds the stored parity against the recomputed one, and the weights are the places of the
syndrome's bits. -/
theorem synGivesTheSyndrome : Obligations.SynGivesTheSyndrome := by
  intro s c
  rw [← syndrome_eq_rule]
  refine ⟨decode_encode (.syn 0#4 c), syn_completes c s, syndrome_toNat c,
    fun p hp => ⟨rfl, parityCheck_eq_false_iff hp c⟩, fun aux haux => ?field, ?bitZero, fun n => ?codewords,
    syn_completes 0xDA s⟩
  case field => exact refusedWith_of_field (i := .syn aux c) rfl haux s
  case bitZero => exact (syn_completes c s).trans (syn_xor_one_completes c s).symm
  case codewords =>
    exact ⟨_, enc_append_completes n s, syn_encodeNibble_completes n s,
      fun p hp hp' => syn_flipBit_encodeNibble_completes n hp hp' s⟩

/-- Settles O17: the correction adds one bit to the byte, and so adds that bit's data to the nibble. -/
theorem decCorrectsTheNamedBit : Obligations.DecCorrectsTheNamedBit := by
  intro s c
  simp only [← correctCodeword_eq_rule, ← gatherData_eq_rule, ← syndrome_eq_rule]
  refine ⟨decode_encode (.dec 0#4 c), dec_completes c s, fun aux haux => ?field, fun hparity => ?parity,
    fun hdata => ?data, ?bitZero, fun hne => ?range, dec_completes 0x90 s⟩
  case field => exact refusedWith_of_field (i := .dec aux c) rfl haux s
  case parity => rw [gatherData_correctCodeword, gatherData_correction_parity hparity, BitVec.xor_zero]
  case data =>
    obtain ⟨k, hk, hbit⟩ := gatherData_correction_data hdata
    exact ⟨k, hk, by rw [gatherData_correctCodeword, hbit]⟩
  case bitZero => exact (dec_completes c s).trans (dec_xor_one_completes c s).symm
  case range =>
    have hpos : (syndrome c).toNat ≠ 0 := fun h => hne (BitVec.eq_of_toNat_eq h)
    have hlt : (syndrome c).toNat < 8 := (syndrome c).isLt
    omega

/-- Settles O18: decoding undoes encoding, with or without one flip. -/
theorem decInvertsEncUnderOneFlip : Obligations.DecInvertsEncUnderOneFlip := by
  intro s n
  exact ⟨_, enc_append_completes n s, fun t => ⟨(dec_completes_iff _ n t).mpr (decodeNibble_encodeNibble n),
    fun p hp => dec_flipBit_encodeNibble_completes n hp t⟩⟩

/-- Settles O19: the syndrome is an exclusive or of bits of the byte. -/
theorem syndromeValuesAndLinearity : Obligations.SyndromeValuesAndLinearity := by
  refine ⟨fun s n => ?values, fun s c => ?parts, fun s c e => ?linear⟩
  case values =>
    have hzero := syn_xor_one_completes (encodeNibble n) s
    rw [synResult_encodeNibble] at hzero
    exact ⟨_, enc_append_completes n s, syn_encodeNibble_completes n s,
      fun p hp hp' => syn_flipBit_encodeNibble_completes n hp hp' s, hzero⟩
  case parts =>
    refine ⟨_, _, _, _, _, syn_completes c s, pext_completes c s, dgath_completes c s, enc_completes _ s,
      pext_completes _ s, ?_⟩
    rw [synResult, syndrome_eq_storedParity_xor, BitVec.setWidth_xor, pextResult, pextResult]
  case linear =>
    have h := syn_completes (c ^^^ e) s
    rw [synResult, syndrome_xor, BitVec.setWidth_xor] at h
    exact ⟨_, _, syn_completes c s, syn_completes e s, h⟩

/-- Settles O20: a byte is as far from a codeword as their difference is from 0, and decodes accordingly. -/
theorem decGivesTheNearestCodeword : Obligations.DecGivesTheNearestCodeword := by
  simp only [Obligations.DecGivesTheNearestCodeword, ← encodeNibble_eq_rule]
  refine ⟨fun s c => ?nearest, fun s n => ?sixteen, fun s n c hfar => ?far, fun s => ?doubleFlip⟩
  case nearest =>
    exact ⟨decodeNibble c, dec_completes c s, fun m => (distance_encodeNibble_le_one_iff c m).trans eq_comm⟩
  case sixteen =>
    exact ⟨bytesNear n, bytesNear_nodup n, bytesNear_length n,
      fun c => (dec_completes_iff c n s).trans (mem_bytesNear_iff n c).symm⟩
  case far =>
    refine ⟨decodeNibble c, fun heq => ?_, dec_completes c s⟩
    have hnear : distance c (encodeNibble n) ≤ 1 := (distance_encodeNibble_le_one_iff c n).mpr heq
    omega
  case doubleFlip => exact ⟨rfl, syn_completes 0xC0 s, rfl, enc_append_completes 0x8 s, dec_completes 0xC0 s⟩

/-- Settles O21: bit 0 is in no check and holds no data. -/
theorem bitZeroIsIgnored : Obligations.BitZeroIsIgnored := fun s c =>
  ⟨_, _, dec_completes c s, dec_xor_one_completes c s, syn_completes c s, syn_xor_one_completes c s⟩

end Sys2Proof.Machine
end

section
/-! SUPPORT. R172's table: which cause each check of R173 names, and which cause each code stands for. -/

namespace Sys2Proof.Machine

/-- R172's columns "cause" and "commands that raise it", the causes of R173's earlier checks being absent. -/
def CauseArises (op : Opcode) (aux : Aux) (opd : Byte) : Cause → Prop
  | .eOpcode => 0xA#4 ≤ op
  | .eIndex => (op = 0x6 ∨ op = 0x9) ∧ 8 ≤ aux.toNat
  | .eField => op ∈ [0x0#4, 0x1#4, 0x2#4, 0x3#4, 0x4#4, 0x5#4, 0x7#4, 0x8#4] ∧ aux ≠ 0
  | .eOperand => (op = 0x0 ∨ op = 0x3) ∧ aux = 0 ∧ opd.extractLsb' 4 4 ≠ 0#4

/-- Only a cause that arises is reported: R173's checks, each reached when those before it have passed. -/
theorem causeArises_of_evalCheck {op : Opcode} {aux : Aux} {opd : Byte} {c : Cause}
    (h : evalCheck op aux opd = some c) : CauseArises op aux opd c := by
  unfold evalCheck at h
  split_ifs at h with hopcode hindex hfield hoperand <;> obtain rfl := Option.some.inj h
  · exact hopcode
  · obtain ⟨hop, haux⟩ := hindex
    exact ⟨hop, (aux_ge_eight_iff aux).mpr haux⟩
  · obtain ⟨hop, haux⟩ := hfield
    exact ⟨opcode_without_index op hopcode hop, haux⟩
  · obtain ⟨hop, hopd⟩ := hoperand
    have hnoIndex : ¬(op = 0x6 ∨ op = 0x9) := by obtain rfl | rfl := hop <;> decide
    exact ⟨hop, by_contra fun haux => hfield ⟨hnoIndex, haux⟩, hopd⟩

/-- R172, R173: the check on a word's fields names exactly the cause that arises. -/
theorem evalCheck_eq_some_iff (op : Opcode) (aux : Aux) (opd : Byte) (c : Cause) :
    evalCheck op aux opd = some c ↔ CauseArises op aux opd c := by
  refine ⟨causeArises_of_evalCheck, fun h => ?_⟩
  cases c with
  | eOpcode => exact evalCheck_reserved op aux opd h
  | eIndex =>
    obtain ⟨hop, haux⟩ := h
    exact evalCheck_indexRange op aux opd hop ((aux_ge_eight_iff aux).mp haux)
  | eField =>
    obtain ⟨hop, haux⟩ := h
    exact evalCheck_field op aux opd hop haux
  | eOperand =>
    obtain ⟨hop, rfl, hopd⟩ := h
    exact evalCheck_operand op opd hop hopd

/-- A code driven with `err = 1` is that of the check that refuses the command. -/
theorem refusedWith_iff (i : Instr) (s : State) (code : Byte) :
    RefusedWith i s code ↔ ∃ c, i.defect = some c ∧ causeCode c = code := by
  constructor
  · intro h
    rw [RefusedWith, exec_outputs] at h
    have hout : outputsFor i.defect (commandResult i) = { res := code, err := true } :=
      Option.some.inj (congrArg State.out (Host.Outcome.next.inj h))
    cases hd : i.defect with
    | none => rw [hd] at hout; cases hout
    | some c => rw [hd] at hout; exact ⟨c, rfl, congrArg Outputs.res hout⟩
  · rintro ⟨c, hd, rfl⟩
    exact refusedWith_of_defect hd s

/-- R172: a word is refused with a cause's code exactly when the cause arises in its fields. -/
theorem refusedWith_decode_iff (w : Cmd) (s : State) (c : Cause) :
    RefusedWith (decode w) s (causeCode c) ↔ CauseArises (opField w) (auxField w) (opdField w) c := by
  rw [refusedWith_iff, ← evalCheck_eq_some_iff, ← decode_defect]
  refine ⟨fun ⟨c', hd, hcode⟩ => ?_, fun hd => ⟨c, hd, rfl⟩⟩
  rwa [← causeCode_injective hcode]

theorem causeCode_range (c : Cause) : 0x01 ≤ causeCode c ∧ causeCode c ≤ 0x04 := by
  cases c <;> decide

/-- R173 on the word of a command that a check refuses. -/
theorem eval_of_decode_defect {w : Cmd} {c : Cause} (h : (decode w).defect = some c) :
    eval w = { res := causeCode c, err := true } := by
  rw [← encode_decode w, eval_encode, h]; rfl

end Sys2Proof.Machine
end

section
/-! SUPPORT. What a step of one block does to a system (R179). -/

namespace Sys2Proof.Machine

/-- A step at a place sets that place, to a state that depends on the block there alone: the same step in another
system with this block at this place sets it to the same state. (At a place with no block, setting is no change.) -/
theorem systemStep_sets {k : Nat} {sys a : System} (h : systemStep k sys = .next a) :
    ∃ t : State, ∀ sys' : System, sys'[k]? = sys[k]? → systemStep k sys' = .next (sys'.set k t) := by
  obtain ⟨hk, -⟩ | ⟨s, t, hk, ht, -⟩ := systemStep_next k sys a h
  · refine ⟨State.reset, fun sys' h' => ?_⟩
    rw [hk] at h'
    rw [systemStep_absent k sys' h', List.set_eq_of_length_le (List.getElem?_eq_none_iff.mp h')]
  · exact ⟨t, fun sys' h' => systemStep_present k sys' s t (h'.trans hk) ht⟩

/-- A block that is presented a command next evaluates that command. -/
theorem systemStep_presenting {k : Nat} {sys a : System} {s : State} {w : Cmd} {rest : List HostAct}
    (h : systemStep k sys = .next a) (hk : sys[k]? = some (s.presenting w rest)) :
    ∃ t : State, a[k]? = some t ∧ t.out = some (eval w) := by
  rw [systemStep_present k sys _ _ hk (step_present_eval _ w rest rfl)] at h
  obtain rfl := Host.Outcome.next.inj h
  obtain ⟨hlt, -⟩ := List.getElem?_eq_some_iff.mp hk
  exact ⟨_, List.getElem?_set_self hlt, rfl⟩

end Sys2Proof.Machine
end

section
/-! The statements about refusals, the order of the checks and several instances (60_exceptions.md). -/

namespace Sys2Proof.Machine

/-- Settles O25: the code names the check that refuses the word, and the check names the cause that arises. -/
theorem causeCodesAreDrivenForTheirCauses : Obligations.CauseCodesAreDrivenForTheirCauses := by
  intro s w
  refine ⟨refusedWith_decode_iff w s .eOpcode, refusedWith_decode_iff w s .eIndex,
    refusedWith_decode_iff w s .eField, refusedWith_decode_iff w s .eOperand, fun code hrefused => ?_⟩
  obtain ⟨c, -, rfl⟩ := (refusedWith_iff (decode w) s code).mp hrefused
  exact causeCode_range c

/-- Settles O31: a presented word is decoded, and its command drives the `eval` of the word. -/
theorem machineRefinesEval : Obligations.MachineRefinesEval :=
  ⟨fun s w rest => step_present_eval (s.presenting w rest) w rest rfl, by decide⟩

/-- Settles O29: the refused word leaves only its outputs and itself on the ports, and the next evaluation replaces
both. -/
theorem refusedCommandLeavesNothingBehind : Obligations.RefusedCommandLeavesNothingBehind := by
  intro s w next rest c hdefect
  obtain ⟨hstep, -⟩ := machineRefinesEval
  have hrefused := hstep s w (.present next :: rest)
  rw [eval_of_decode_defect hdefect] at hrefused
  exact ⟨_, _, hrefused, rfl, step_present_eval _ next rest rfl, hstep s next rest⟩

/-- Settles O41: each step sets its own place to a state that the other step cannot change, and two places may be set
in either order. -/
theorem instancesShareNothing : Obligations.InstancesShareNothing := by
  intro sys a b j k hjk hj hk
  obtain ⟨t, ht⟩ := systemStep_sets hj
  obtain ⟨u, hu⟩ := systemStep_sets hk
  obtain rfl : a = sys.set j t := Host.Outcome.next.inj (hj.symm.trans (ht sys rfl))
  obtain rfl : b = sys.set k u := Host.Outcome.next.inj (hk.symm.trans (hu sys rfl))
  refine ⟨List.length_set, fun m hm => List.getElem?_set_ne hm.symm,
    fun s w rest hpresented => systemStep_presenting hj hpresented, (sys.set j t).set k u, ?kAfterJ, ?jAfterK⟩
  case kAfterJ => exact hu _ (List.getElem?_set_ne hjk)
  case jAfterK =>
    rw [List.set_comm t u hjk]
    exact ht _ (List.getElem?_set_ne hjk.symm)

end Sys2Proof.Machine
end

section
/-! SUPPORT. The two steps by which the host presents a command and samples it (R203, R206). -/

namespace Sys2Proof.Machine

/-- A command presented and then sampled, settled, costs a run two steps: the command and its `eval` stand on the
ports, and the `eval` has been read. -/
theorem core_run_present_sample (k : Nat) {s : State} {w : Cmd} {stable : Bool} {waited : Nat} {rest : List HostAct}
    (hp : s.pending = .present w :: .sample stable waited :: rest) (hset : Settled stable waited) :
    core.run (k + 2) s =
      core.run k { cmd := some w, out := some (eval w), pending := rest, samples := s.samples ++ [eval w] } := by
  rw [core_run_next (k + 1) s _ (step_present_eval s w _ hp)]
  exact core_run_next k _ _ ((step_sample _ stable waited rest rfl).trans (hostSample_settled _ _ _ (eval w) rfl hset))

end Sys2Proof.Machine
end

section
/-! The statements about reset, the host's samples and whole runs (70_reset_and_hazards.md). -/

namespace Sys2Proof.Machine

/-- Settles O38, by induction on the commands: the first is presented and sampled in two steps, and the last command of
the list is the last of the rest, or the first one when none is left. -/
theorem runIsTheListOfEvaluations : Obligations.RunIsTheListOfEvaluations := by
  intro cmds waited s hwaited
  induction cmds generalizing s with
  | nil => simp [core_run_zero, sampledRun]
  | cons w rest ih =>
    have hlast : (w :: rest).getLast? = rest.getLast?.or (some w) := List.getLast?_append (l := [w])
    have hrun := core_run_present_sample (2 * rest.length) (s := { s with pending := sampledRun waited (w :: rest) })
      rfl ⟨rfl, hwaited⟩
    rw [List.length_cons, Nat.mul_succ, hrun,
      ih { cmd := some w, out := some (eval w), pending := [], samples := s.samples ++ [eval w] }, hlast]
    simp

/-- Settles O40, by the host's next act: an idle step and an evaluation answer a next state, and a sample answers one or
is one of the faults of `hostSample_cases`. -/
theorem theBlockNeverStops : Obligations.TheBlockNeverStops := by
  intro s
  cases hp : s.pending with
  | nil => exact .inl ⟨s, step_idle s hp⟩
  | cons act rest =>
    cases act with
    | present w => exact .inl ⟨_, step_present_eval s w rest hp⟩
    | sample stable waited =>
      rw [step_sample s stable waited rest hp]
      obtain ⟨hout, hfault⟩ | ⟨-, -, hstable, hfault⟩ | ⟨-, -, -, hearly, hfault⟩ | ⟨o, -, -, -, hnext⟩ :=
        hostSample_cases stable waited (s.advanceHost rest)
      · exact .inr ⟨stable, waited, rest, rfl, .inl ⟨hfault, hout⟩⟩
      · exact .inr ⟨stable, waited, rest, rfl, .inr (.inl ⟨hfault, hstable⟩)⟩
      · exact .inr ⟨stable, waited, rest, rfl, .inr (.inr ⟨hfault, hearly⟩)⟩
      · exact .inl ⟨_, hnext⟩

/-- Settles O34, by what a sample can do: with outputs on the ports, the conditions of `hostSample_cases` are those of
the statement. -/
theorem onlySettledSamplesHaveAValue : Obligations.OnlySettledSamplesHaveAValue := by
  intro s o stable waited rest hout
  rw [step_sample _ stable waited rest rfl]
  obtain ⟨hnone, -⟩ | ⟨-, -, rfl, hfault⟩ | ⟨-, -, rfl, hearly, hfault⟩ | ⟨o', hout', rfl, hwaited, hnext⟩ :=
    hostSample_cases stable waited (State.advanceHost { s with pending := .sample stable waited :: rest } rest)
  · exact absurd (hout.symm.trans hnone) (Option.some_ne_none o)
  · rw [hfault, if_pos rfl]
  · rw [hfault, if_neg (by decide), if_pos hearly]
  · obtain rfl : o = o' := Option.some.inj (hout.symm.trans hout')
    rw [hnext, if_neg (by decide), if_neg (not_lt.mpr hwaited)]
    rfl

/-- Settles O35: a sample at reset finds no outputs, and an evaluation drives the same ones from every state. -/
theorem nothingIsOnThePortsAtReset : Obligations.NothingIsOnThePortsAtReset := by
  refine ⟨rfl, rfl, fun stable waited rest => ?sample, fun w s => ?present⟩
  case sample =>
    rw [step_sample _ stable waited rest rfl]
    exact (hostSample_unspecified_iff stable waited _).mpr rfl
  case present => exact ⟨_, _, step_present_eval _ w [] rfl, step_present_eval _ w [] rfl, rfl, rfl⟩

/-- Settles O36: both ports are empty together, and no sample has been recorded. -/
theorem resetMeetsThePortInvariant : Obligations.ResetMeetsThePortInvariant := by
  refine ⟨?ports, fun o ho => ?samples⟩
  case ports => exact rfl
  case samples => exact absurd ho List.not_mem_nil

end Sys2Proof.Machine
end
